-- ==== Sys2Proof/Word.lean ====
section
/-! DEFINITION. The two word types of the block (spec 00_scope.md R6). -/

namespace Sys2Proof

/-- A register or stream byte: "8-bit unsigned" (R6, R13). -/
abbrev Byte := BitVec 8

/-- A byte address, the width of PC: "16-bit unsigned" (R6, R13). -/
abbrev Addr := BitVec 16

end Sys2Proof
end

