-- ==== Sys2Proof/Machine/Flags.lean ====
section
/-! DEFINITION. The status register's fields and the status-flag updater (spec 10_state.md R19 to R23). -/

namespace Sys2Proof.Machine

open Sys2Proof

/-- P.Z, bit 1 of P (R19). -/
def flagZ (p : Byte) : Bool := p.getLsbD 1

/-- P.N, bit 7 of P (R19). -/
def flagN (p : Byte) : Bool := p.getLsbD 7

/-- The mask of the reserved bits 0, 2, 3, 4, 5 and 6 of P (R20, R21). -/
def reservedMask : Byte := 0b0111_1101

/-- The reserved bits of P, each in its place (R20). -/
def reservedBits (p : Byte) : Byte := p &&& reservedMask

/-- `z` of R21 as a byte: 1 if the result is 0x00, else 0. -/
def zeroBit (r : Byte) : Byte := if r = 0x00 then 1 else 0

/-- `n` of R21 as a byte: bit 7 of the result. -/
def negativeBit (r : Byte) : Byte := if r.getLsbD 7 then 1 else 0

/-- `UpdateFlags` on P: only Z and N are rewritten, from the result `r` (R21). -/
def updatedStatus (p r : Byte) : Byte :=
  reservedBits p ||| (negativeBit r <<< 7) ||| (zeroBit r <<< 1)

end Sys2Proof.Machine
end

