-- ==== Sys2Proof/Config.lean ====
section
/-! DEFINITION. What is fixed for one machine: the implementation parameter of spec 00_scope.md R6 that is neither a
width nor host data. The spec leaves no value undefined, so there is no free value here. -/

namespace Sys2Proof

/-- The parameters of R6 that a run is given and never changes. The stream and rf0, the other arguments of R6, are
data of the machine's state. -/
structure Config where
  /-- `INX_IMPLEMENTED` (R6, 92_eei_decisions.md D5): whether byte 0xE8 decodes to increment-X. The spec leaves it OPEN
  as an argument of the model; it is a field of State, so a statement over all states covers both values. -/
  inxImplemented : Bool
  deriving DecidableEq, Repr

/-- The default launch's parameters. DESIGN CHOICE (log entry 1): D5's "recommended default", `false`. -/
def Config.default : Config := { inxImplemented := false }

end Sys2Proof
end

