-- ==== Sys2Proof/Machine/Memory.lean ====
section
/-! DEFINITION. The program byte stream, the only memory of the block (spec 20_memory.md R28 to R31, R35). -/

namespace Sys2Proof.Machine

open Sys2Proof

/-- The stream as a list of (address, byte) cells. Canonical form: the cells stand at addresses 0, 1, …, N-1 in that
order (`Memory.wf`), so N is the length and equal streams are equal lists. An unlisted address holds no byte: reading
it is the spec's own `OutOfBounds` (R29). DESIGN CHOICE (log entry 8). -/
abbrev Memory := List Host.Cell

/-- The cells stand at addresses `n`, `n + 1`, … in order. -/
def Memory.wfFrom : Nat → Memory → Bool
  | _, [] => true
  | n, (k, _) :: m => k == n && Memory.wfFrom (n + 1) m

/-- The canonical form: "The stream has N bytes, at addresses 0 to N-1" (R28). -/
def Memory.wf (m : Memory) : Bool := Memory.wfFrom 0 m

/-- The bound on N (R35, 92_eei_decisions.md D2): 0xFFFF bytes. -/
def maxStreamLength : Nat := 0xFFFF

/-- "N ≤ 0xFFFF" (R35). -/
def Memory.fits (m : Memory) : Bool := decide (m.length ≤ maxStreamLength)

/-- The byte at an address; none where the address is unlisted, that is, outside the stream. -/
def Memory.read : Memory → Nat → Option Byte
  | [], _ => none
  | (k, b) :: m, a => if k = a then some b else Memory.read m a

/-- The bytes of a list at addresses `n`, `n + 1`, …. -/
def Memory.fromBytes : Nat → List Byte → Memory
  | _, [] => []
  | n, b :: bs => (n, b) :: Memory.fromBytes (n + 1) bs

/-- The stream of a byte list: "The address of a byte is its index in the stream" (R35). -/
def Memory.ofBytes (bs : List Byte) : Memory := Memory.fromBytes 0 bs

/-- The bytes of a stream in address order. -/
def Memory.bytes (m : Memory) : List Byte := m.map Prod.snd

/-- The stream with `bs` at addresses `a`, `a + 1`, …, the bytes elsewhere as they were. A gap between the old end and
`a` is filled with 0x00, and what would pass the bound of R35 is cut. A host's act before a run (R76), never a step's:
nothing writes the stream during a run (R30). -/
def Memory.overlay (m : Memory) (a : Nat) (bs : List Byte) : Memory :=
  let old := Memory.bytes m
  Memory.ofBytes
    ((old.take a ++ List.replicate (a - old.length) 0x00 ++ bs ++ old.drop (a + bs.length)).take maxStreamLength)

end Sys2Proof.Machine
end

