-- ==== Sys2Proof/Machine/State.lean ====
section
/-! DEFINITION. The state of the block as plain data (spec 10_state.md R13, R24, R25; 20_memory.md R28), the reasons a
step has no next state, and the state after reset. -/

namespace Sys2Proof.Machine

open Sys2Proof

/-- The register file: "the entire emulated CPU state", exactly six fields (R13). -/
structure RegFile where
  /-- PC, `program_counter` (R17). -/
  pc : Addr
  /-- SP, `stack_pointer` (R18). -/
  sp : Byte
  /-- A, `accumulator` (R14). -/
  a : Byte
  /-- X, `register_x` (R15). -/
  x : Byte
  /-- Y, `register_y` (R16). -/
  y : Byte
  /-- P, `processor_status`: Z is bit 1, N is bit 7, the rest is reserved storage (R19, R20). -/
  p : Byte
  deriving DecidableEq, Repr

/-- A fresh register file, "all fields zero" (R27). -/
def RegFile.zero : RegFile := { pc := 0, sp := 0, a := 0, x := 0, y := 0, p := 0 }

/-- The spec's own `Fault` (60_exceptions.md R60), the record a raise carries. Named apart from `Fault` below, which is
the host's word for a step that has no next state. -/
inductive FaultRecord where
  /-- "the byte at `address` does not match any defined instruction encoding" (R61). -/
  | unsupportedOpcode (byte : Byte) (address : Addr)
  /-- "fetch or operand read past the end of the supplied byte stream" (R62). -/
  | outOfBounds (address : Addr)
  deriving DecidableEq, Repr

/-- The run state (R24). -/
inductive RunState where
  | running
  | halted
  | faulted (e : FaultRecord)
  deriving DecidableEq, Repr

/-- The machine's state: the register file, the run state, the stream, and the parameter a run is given. "The block has
no other state" (R25). -/
structure State where
  rf : RegFile
  run : RunState
  stream : Memory
  cfg : Config
  deriving DecidableEq, Repr

/-- Why a machine is stuck. The faults the spec describes are NOT here: taking one is a next state whose run state is
`faulted e` (R48, R65; log entry 4). -/
inductive Fault where
  /-- Raised by `step` alone, on a step request to a Halted core: "no step; terminal" (93_implementation_defined.md U11,
  92_eei_decisions.md D8). Safe: the machine stops. -/
  | stuckHalted
  /-- Raised by `step` alone, on a step request to a Faulted core (U11, D8). Safe: the machine stops. -/
  | stuckFaulted (e : FaultRecord)
  deriving DecidableEq, Repr

/-- Why a program has no meaning. -/
inductive Refusal where
  /-- Raised by `exec`'s arms alone, for an instruction that has no meaning yet; no arm raises it. Safe. -/
  | notModelled (mnemonic : String)
  /-- Raised by `launch` and `step`, for a stream of more than 0xFFFF bytes: "A model refuses a longer stream" (R35).
  Safe: the spec gives such a program no meaning. -/
  | streamTooLong
  deriving DecidableEq, Repr

/-- The machine right after reset: the default launch of R27 and R74 with nothing supplied (an empty stream, log
entry 2; the recommended parameter, log entry 1). -/
def State.reset : State :=
  { rf := RegFile.zero, run := .running, stream := [], cfg := Config.default }

end Sys2Proof.Machine
end

