-- ==== Sys2Proof/Machine/Ops.lean ====
section
/-! DEFINITION. The named operations over the stream and the registers, and taking a fault. -/

namespace Sys2Proof.Machine

open Sys2Proof

/-- `MemRead(addr, 1)`: the byte of the stream, or `OutOfBounds(addr)` (R29). It has no other effect (R34). -/
def memRead (s : State) (addr : Addr) : Except FaultRecord Byte :=
  match Memory.read s.stream addr.toNat with
  | some b => .ok b
  | none => .error (.outOfBounds addr)

/-- The PC advance, `PC <- (PC + 1) mod 2^16` (R50). -/
def advancePc (s : State) : State := { s with rf := { s.rf with pc := s.rf.pc + 1 } }

/-- Write A (R14). -/
def writeA (v : Byte) (s : State) : State := { s with rf := { s.rf with a := v } }

/-- Write X (R15). -/
def writeX (v : Byte) (s : State) : State := { s with rf := { s.rf with x := v } }

/-- `UpdateFlags(r)`, the only operation that writes P (R21, R22). -/
def updateFlags (r : Byte) (s : State) : State :=
  { s with rf := { s.rf with p := updatedStatus s.rf.p r } }

/-- `halt`: set the run state to Halted (R56). -/
def halt (s : State) : State := { s with run := .halted }

/-- Taking a fault: `raise e` in a step that began in `start`. The register file is the one of the step's start and the
run state is `Faulted(e)`; nothing else is saved, no vector is followed (R48, R63, R65). There is no return from a fault
(R66), so no operation undoes this one. -/
def raise (start : State) (e : FaultRecord) : State := { start with run := .faulted e }

end Sys2Proof.Machine
end

