-- ==== Sys2Proof/Machine/Control.lean ====
section
/-! DEFINITION. Control instructions (spec 41_control.md). There is no control transfer (R57). -/

namespace Sys2Proof.Machine

open Sys2Proof

/-- BRK (R56): the run state becomes Halted. No push, no vector, no flag. -/
def execBrk (s : State) : Host.Outcome State Fault Refusal :=
  .next (halt s)

end Sys2Proof.Machine
end

