-- ==== Sys2Proof/Machine/Increment.lean ====
section
/-! DEFINITION. Increment and ALU arithmetic (spec 42_increment.md). -/

namespace Sys2Proof.Machine

open Sys2Proof

/-- INX (R58): X <- (X + 1) mod 2^8, then the flags from the new X. The decoder gives this instruction only when
`INX_IMPLEMENTED` is true (R44). -/
def execInx (s : State) : Host.Outcome State Fault Refusal :=
  let s1 := writeX (s.rf.x + 1) s
  .next (updateFlags s1.rf.x s1)

end Sys2Proof.Machine
end

