-- ==== Sys2Proof/Machine/LoadTransfer.lean ====
section
/-! DEFINITION. Load and transfer instructions (spec 40_load_transfer.md). Each meaning is `Execute(id)` on the state whose
PC is already past the instruction's bytes. -/

namespace Sys2Proof.Machine

open Sys2Proof

/-- LDA #imm (R54): A <- v, then the flags from the new A. -/
def execLda (imm : Byte) (s : State) : Host.Outcome State Fault Refusal :=
  let s1 := writeA imm s
  .next (updateFlags s1.rf.a s1)

/-- TAX (R55): X <- A, then the flags from the new X. -/
def execTax (s : State) : Host.Outcome State Fault Refusal :=
  let s1 := writeX s.rf.a s
  .next (updateFlags s1.rf.x s1)

end Sys2Proof.Machine
end

