-- ==== Sys2Proof/Syntax.lean ====
section
/-! DEFINITION. The instructions: one constructor per row of spec/opcode_table.json (spec 00_scope.md R4). -/

namespace Sys2Proof

/-- The closed instruction set of R4, each with the operand its format gives it (30_encoding.md R42, R52). -/
inductive Instr where
  /-- `LDA #imm`, Load-Accumulator-Immediate (R54), format IMM8. -/
  | lda (imm : Byte)
  /-- `TAX`, Transfer-Accumulator-to-X (R55), format IMP. -/
  | tax
  /-- `BRK`, Break/Halt (R56), format IMP. -/
  | brk
  /-- `INX`, increment-X (R58), format IMP; an instruction only when `INX_IMPLEMENTED` is true. -/
  | inx
  deriving DecidableEq, Repr

end Sys2Proof
end

