-- ==== Sys2Proof/Machine/Dispatch.lean ====
section
/-! DEFINITION. Which meaning each instruction has: `Execute(id)` of spec 30_encoding.md R48. -/

namespace Sys2Proof.Machine

open Sys2Proof

def exec (i : Instr) (s : State) : Host.Outcome State Fault Refusal :=
  match i with
  | .lda imm => Sys2Proof.Machine.execLda imm s
  | .tax => Sys2Proof.Machine.execTax s
  | .brk => Sys2Proof.Machine.execBrk s
  | .inx => Sys2Proof.Machine.execInx s

end Sys2Proof.Machine
end

