-- ==== Sys2Proof/Decode.lean ====
section
/-! DEFINITION. The opcode map, the decoder (total on any bytes, rejecting by name) and, after it, the encoder
(spec 30_encoding.md R41 to R47). -/

namespace Sys2Proof

/-- The two instruction formats (R42). -/
inductive Format where
  /-- `IMP`, implied: the opcode byte alone. -/
  | imp
  /-- `IMM8`, immediate: the opcode byte, then the byte `imm8`. -/
  | imm8
  deriving DecidableEq, Repr

/-- An instruction identity: the closed enumeration an opcode byte decodes to (R4, R44). -/
inductive Identity where
  | ldaImm
  | tax
  | brk
  | inx
  deriving DecidableEq, Repr

/-- The opcode byte of an identity. This is the one opcode table: the decoder and the encoder both read it
(R44; R47 "must be a single source of truth"). -/
def Identity.opcode : Identity → Byte
  | .ldaImm => 0xA9
  | .tax => 0xAA
  | .brk => 0x00
  | .inx => 0xE8

/-- The format of an identity (R42, R52). -/
def Identity.format : Identity → Format
  | .ldaImm => .imm8
  | .tax => .imp
  | .brk => .imp
  | .inx => .imp

/-- Whether an identity is in the closed set of a machine with parameters `cfg` (R4, R44). -/
def Identity.available (cfg : Config) : Identity → Bool
  | .ldaImm => true
  | .tax => true
  | .brk => true
  | .inx => cfg.inxImplemented

/-- Every identity of the opcode map. -/
def Identity.all : List Identity := [.ldaImm, .tax, .brk, .inx]

/-- The length in bytes of an instruction of a format (R41, R42). -/
def Format.length : Format → Nat
  | .imp => 1
  | .imm8 => 2

/-- The length of an instruction, fixed by its opcode byte alone (R41, R46). -/
def Identity.length (id : Identity) : Nat := id.format.length

/-- R44's `Decode`: the unique identity whose opcode equals the byte, none where the byte is illegal (R45). It reads
the opcode byte and `INX_IMPLEMENTED` and nothing else (R47). -/
def decodeOpcode (cfg : Config) (op : Byte) : Option Identity :=
  Identity.all.find? fun id => id.available cfg && id.opcode == op

/-- Why a byte list is no instruction. -/
inductive DecodeError where
  /-- The list has no opcode byte. -/
  | noOpcode
  /-- The opcode byte is illegal (R45). -/
  | unsupportedOpcode (op : Byte)
  /-- The opcode byte needs an operand byte that is not there. -/
  | noOperand
  deriving DecidableEq, Repr

/-- The operand bytes of an identity, taken from the bytes just after its opcode (R43, R52), and the rest. -/
def decodeOperands : Identity → List Byte → Except DecodeError (Instr × List Byte)
  | .ldaImm, [] => .error .noOperand
  | .ldaImm, v :: rest => .ok (.lda v, rest)
  | .tax, rest => .ok (.tax, rest)
  | .brk, rest => .ok (.brk, rest)
  | .inx, rest => .ok (.inx, rest)

/-- The decoder on any bytes: the first instruction and the bytes after it, or the reason there is none. The opcode is
decided before an operand byte is looked at (R48, R61). -/
def decode (cfg : Config) : List Byte → Except DecodeError (Instr × List Byte)
  | [] => .error .noOpcode
  | op :: rest =>
    match decodeOpcode cfg op with
    | none => .error (.unsupportedOpcode op)
    | some id => decodeOperands id rest

/-- The identity of an instruction. -/
def Instr.identity : Instr → Identity
  | .lda _ => .ldaImm
  | .tax => .tax
  | .brk => .brk
  | .inx => .inx

/-- The operand bytes of an instruction (R42: `imm8` is byte 1 of IMM8). -/
def Instr.operands : Instr → List Byte
  | .lda imm => [imm]
  | .tax => []
  | .brk => []
  | .inx => []

/-- The encoder: the opcode byte, then the operand bytes, in increasing address order (R41, R42). -/
def encode (i : Instr) : List Byte := i.identity.opcode :: i.operands

/-- The length of an instruction in bytes (R41). -/
def Instr.length (i : Instr) : Nat := i.identity.length

/-- The bytes of a table word in address order, up to the longest instruction (2 bytes): bit 0 of `w` is the least
significant bit of the opcode byte, byte 1 is bits 15..8, and every bit from `nbits` up is 0. -/
def wordBytes (nbits w : Nat) : List Byte :=
  [BitVec.ofNat 8 (w % 2 ^ nbits), BitVec.ofNat 8 (w % 2 ^ nbits / 256)]

/-- The parameters under which every row of spec/opcode_table.json is an instruction: the table lists INX "only when
INX_IMPLEMENTED is true". -/
def Config.wholeTable : Config := { inxImplemented := true }

/-- The instruction the decoder reads from a word numbered as spec/opcode_table.json numbers it. DESIGN CHOICE (log
entry 3): the table's rows are decoded with `INX_IMPLEMENTED` true, the condition its INX row states. -/
def decodeTableWord (nbits w : Nat) : Option Instr :=
  match decode Config.wholeTable (wordBytes nbits w) with
  | .ok (i, _) => some i
  | .error _ => none

end Sys2Proof
end

