-- ==== Sys2Proof/Machine/Operands.lean ====
section
/-! DEFINITION. The operand forms: one immediate byte, or none (spec 30_encoding.md R49, R52). -/

namespace Sys2Proof.Machine

open Sys2Proof

/-- `OperandFetch()`: read the byte at PC, then advance PC, only after the read succeeded (R49). -/
def operandFetch (s : State) : Except FaultRecord (Byte × State) :=
  match memRead s s.rf.pc with
  | .ok v => .ok (v, advancePc s)
  | .error e => .error e

/-- The operands of an identity, read in increasing address order from PC on, and the state after reading them. The
spec reads an operand at the start of `Execute` (R54); here it is the last part of the fetch, in the same place of the
step's order (log entry 9). -/
def fetchOperands : Identity → State → Except FaultRecord (Instr × State)
  | .ldaImm, s =>
    match operandFetch s with
    | .ok (v, s') => .ok (.lda v, s')
    | .error e => .error e
  | .tax, s => .ok (.tax, s)
  | .brk, s => .ok (.brk, s)
  | .inx, s => .ok (.inx, s)

end Sys2Proof.Machine
end

