-- ==== Sys2Proof/Machine/Fetch.lean ====
section
/-! DEFINITION. The part of a step that comes before an instruction's effect: fetch, advance, decode, operands
(spec 30_encoding.md R48, R49). -/

namespace Sys2Proof.Machine

open Sys2Proof

/-- `Decode(op, a)`: the identity, or `UnsupportedOpcode(op, a)` with the address the opcode byte was fetched from
(R44, R61). -/
def decodeAt (cfg : Config) (op : Byte) (a : Addr) : Except FaultRecord Identity :=
  match decodeOpcode cfg op with
  | some id => .ok id
  | none => .error (.unsupportedOpcode op a)

/-- Steps 1 to 3 of R48 and the operand reads: the instruction at PC, and the state with PC just past its bytes. The
first of the three checks that fails gives the fault (R64). -/
def fetch (s : State) : Except FaultRecord (Instr × State) :=
  match memRead s s.rf.pc with
  | .error e => .error e
  | .ok op =>
    match decodeAt s.cfg op s.rf.pc with
    | .error e => .error e
    | .ok id => fetchOperands id (advancePc s)

end Sys2Proof.Machine
end

