-- ==== Sys2Proof/Machine/Launch.lean ====
section
/-! DEFINITION. How a program comes into the machine: the host's launch (spec 70_reset_and_hazards.md R74 to R76), and the
placing of one instruction where the next step fetches. -/

namespace Sys2Proof.Machine

open Sys2Proof

/-- Start a run: the parameters, the whole stream and the register file are the host's (R74, R76); a stream of more than
0xFFFF bytes is refused (R35). -/
def launch (cfg : Config) (bs : List Byte) (rf0 : RegFile) : Host.Outcome State Fault Refusal :=
  if Memory.fits (Memory.ofBytes bs) then
    .next { rf := rf0, run := .running, stream := Memory.ofBytes bs, cfg := cfg }
  else .refused .streamTooLong

/-- Where `placeInstr` places: PC, or 0 where PC is so high that the longest instruction has no room below the bound
of R35 (log entry 2). -/
def placePc (s : State) : Addr :=
  if s.rf.pc.toNat + 2 ≤ maxStreamLength then s.rf.pc else 0

/-- The state with the bytes `bs` of an instruction where the next step fetches: in the stream at PC, the run state
Running (only Running has a step, R24), and `INX_IMPLEMENTED` true if the opcode is INX's, which decodes under no other
parameter (R44). Everything else is kept. DESIGN CHOICE (log entry 2). -/
def placeInstr (s : State) (bs : List Byte) : State :=
  { rf := { s.rf with pc := placePc s }
    run := .running
    stream := Memory.overlay s.stream (placePc s).toNat bs
    cfg := { inxImplemented := s.cfg.inxImplemented || bs.head? == some Identity.inx.opcode } }

end Sys2Proof.Machine
end

