-- ==== Sys2Proof/Machine/Step.lean ====
section
/-! DEFINITION. One step of the machine (spec 30_encoding.md R48). -/

namespace Sys2Proof.Machine

open Sys2Proof

/-- One step: one whole instruction, atomically (R48). Only Running has a step (R24), a stream longer than R35 allows has
no meaning, and a raise takes the fault from the state the step began in, so no register changes (R63). -/
def step (s : State) : Host.Outcome State Fault Refusal :=
  match s.run with
  | .halted => .fault .stuckHalted
  | .faulted e => .fault (.stuckFaulted e)
  | .running =>
    if Memory.fits s.stream then
      match fetch s with
      | .ok (i, s1) => exec i s1
      | .error e => .next (raise s e)
    else .refused .streamTooLong

/-- `s` with the instruction of a table word stored where `step` fetches its next instruction. -/
def State.withFetchWord (s : State) (nbits w : Nat) : State := placeInstr s (wordBytes nbits w)

end Sys2Proof.Machine
end

