-- ==== Sys2Proof/Machine/Run.lean ====
section
/-! DEFINITION. The executor's loop (spec 30_encoding.md R51), with a bound on the number of steps. -/

namespace Sys2Proof.Machine

/-- At most `k` steps, while the run state is Running; "when Halted, stop" (R51). A stopped machine is returned as it
is. -/
def runToStop : Nat → State → Host.Outcome State Fault Refusal
  | 0, s => .next s
  | k + 1, s =>
    match s.run with
    | .running =>
      match step s with
      | .next t => runToStop k t
      | .fault r => .fault r
      | .refused r => .refused r
    | .halted => .next s
    | .faulted _ => .next s

end Sys2Proof.Machine
end

