-- ==== Sys2Proof/Safety.lean ====
section
/-! DEFINITION. The terms in which claims speak of runs: states that can step, stopped states, the invariant, and what it
is for a register or a piece of storage to play no part in a step. -/

namespace Sys2Proof.Machine

open Sys2Proof

/-- The stream is one of the spec's: N bytes at addresses 0 to N-1, with N ≤ 0xFFFF (R28, R35). -/
abbrev StreamOk (s : State) : Prop := Memory.wf s.stream = true ∧ Memory.fits s.stream = true

/-- A state that has a step: the run state is Running and the stream is one of the spec's (R24, R35). -/
abbrev Ready (s : State) : Prop := s.run = .running ∧ StreamOk s

/-- The run has ended: Halted or Faulted(e), "The only stop states" (R73). -/
abbrev Stopped (s : State) : Prop := s.run ≠ .running

/-- The status `new` is `old` with Z and N set from the result `r`, bit by bit (R19, R20, R23). -/
abbrev FlagsSetFrom (old new r : Byte) : Prop :=
  new.getLsbD 1 = (r == 0) ∧ new.getLsbD 7 = r.getLsbD 7 ∧
  ∀ k ∈ [0, 2, 3, 4, 5, 6], new.getLsbD k = old.getLsbD k

/-- What a run state says of the rest of the state: a Halted core's PC is just past a BRK (R56), and a Faulted core's
record names a fault the instruction at PC really has, with PC at that instruction's opcode (R61 to R63). -/
def RunRecordTrue (s : State) : Prop :=
  match s.run with
  | .running => True
  | .halted => ∃ a, s.rf.pc.toNat = a + 1 ∧ Memory.read s.stream a = some 0x00
  | .faulted (.unsupportedOpcode b a) =>
    a = s.rf.pc ∧ Memory.read s.stream a.toNat = some b ∧
    b ≠ 0xA9 ∧ b ≠ 0xAA ∧ b ≠ 0x00 ∧ (b = 0xE8 → s.cfg.inxImplemented = false)
  | .faulted (.outOfBounds a) =>
    Memory.read s.stream a.toNat = none ∧
    (a = s.rf.pc ∨ (a.toNat = s.rf.pc.toNat + 1 ∧ Memory.read s.stream s.rf.pc.toNat = some 0xA9))

/-- The invariant of a run: the stream is one of the spec's and the run state tells the truth about how the run got
there. -/
def Inv (s : State) : Prop := StreamOk s ∧ RunRecordTrue s

/-- A function of states applied to an outcome's next state; a fault or a refusal is left as it is. -/
def onNext (f : State → State) : Host.Outcome State Fault Refusal → Host.Outcome State Fault Refusal
  | .next s => .next (f s)
  | .fault r => .fault r
  | .refused r => .refused r

/-- The state with other values in SP and Y. -/
def withSpY (sp y : Byte) (s : State) : State := { s with rf := { s.rf with sp := sp, y := y } }

/-- The state with the reserved bits of P taken from `v` (R20). -/
def withReserved (v : Byte) (s : State) : State :=
  { s with rf := { s.rf with p := (s.rf.p &&& 0b1000_0010) ||| (v &&& 0b0111_1101) } }

/-- The state whose PC is past an instruction `i` that stands at PC. -/
def past (i : Instr) (s : State) : State := { s with rf := { s.rf with pc := s.rf.pc + BitVec.ofNat 16 i.length } }

/-- The effects of a list of instructions, one after the other, each on the state whose PC is past it. It reads no stream
and decodes nothing. -/
def execAll : List Instr → State → Host.Outcome State Fault Refusal
  | [], s => .next s
  | i :: is, s =>
    match exec i (past i s) with
    | .next t => execAll is t
    | .fault r => .fault r
    | .refused r => .refused r

/-- Two states that agree on where control is (PC, run state) and on what it depends on (stream, parameter); A, X, Y, SP
and P may differ. -/
abbrev SameControl (s t : State) : Prop :=
  s.rf.pc = t.rf.pc ∧ s.run = t.run ∧ s.stream = t.stream ∧ s.cfg = t.cfg

/-- Two outcomes of one kind, with the same reason or with next states that agree on control. -/
def SameControlOutcome : Host.Outcome State Fault Refusal → Host.Outcome State Fault Refusal → Prop
  | .next s, .next t => SameControl s t
  | .fault r, .fault r' => r = r'
  | .refused r, .refused r' => r = r'
  | _, _ => False

end Sys2Proof.Machine
end

