-- ==== Sys2Proof/WellFormed.lean ====
section
/-! DEFINITION. Which terms of `Instr` are instructions of a machine with given parameters. -/

namespace Sys2Proof

/-- An instruction exists on a machine with parameters `cfg`. The one check there is: increment-X is in the closed set
only when `INX_IMPLEMENTED` is true (R4, R58). The operand of LDA is any 8-bit value (R43). -/
def WellFormed (cfg : Config) : Instr → Bool
  | .lda _ => true
  | .tax => true
  | .brk => true
  | .inx => cfg.inxImplemented

end Sys2Proof
end

