-- ==== Sys2Proof/Certificates/Slice0/Obligations.lean ====
section
/-! DEFINITION. The statements for the provers. Each docstring names the rule or the section of spec/ it formalises; where a
clause is the model's or the spec's own choice, it says so and names the log entry. -/

open Sys2Proof Sys2Proof.Machine

/-! ## The status register -/

/-- R21: the updater writes `P <- (P & 0b0111_1101) | (n << 7) | (z << 1)` and nothing else; Z and N are never both set
by it. -/
def Obligations.UpdaterRewritesOnlyZeroAndNegative : Prop :=
  ∀ (r : Byte) (s : State),
    updateFlags r s = { s with rf := { s.rf with
      p := (s.rf.p &&& 0b0111_1101) ||| (if r.getLsbD 7 then 0x80 else 0x00) ||| (if r = 0 then 0x02 else 0x00) } } ∧
    FlagsSetFrom s.rf.p (updateFlags r s).rf.p r ∧
    ¬ (flagZ (updateFlags r s).rf.p = true ∧ flagN (updateFlags r s).rf.p = true)

/-- R23: after an instruction that sets flags from a register, Z and N are that register's, and every other bit of P is
as before; the instruction that sets no flags leaves P. -/
def Obligations.FlagsFollowTheRegisterTheInstructionWrote : Prop :=
  ∀ (s t : State),
    (∀ v, exec (.lda v) s = .next t → FlagsSetFrom s.rf.p t.rf.p t.rf.a) ∧
    (exec .tax s = .next t → FlagsSetFrom s.rf.p t.rf.p t.rf.x) ∧
    (exec .inx s = .next t → FlagsSetFrom s.rf.p t.rf.p t.rf.x) ∧
    (exec .brk s = .next t → t.rf.p = s.rf.p)

/-- R22: over a whole step, P is as it was or is what one update from the post-write register gives, and then the
instruction is the one that writes that register. -/
def Obligations.StatusChangesOnlyThroughTheUpdater : Prop :=
  ∀ (s t : State), step s = .next t →
    t.rf.p = s.rf.p ∨
    ∃ i s1, fetch s = .ok (i, s1) ∧
      ((∃ v, i = .lda v ∧ t.rf.p = (updateFlags t.rf.a s).rf.p) ∨
       ((i = .tax ∨ i = .inx) ∧ t.rf.p = (updateFlags t.rf.x s).rf.p))

/-- R20: the reserved bits of P hold their initial value for the whole run, whatever it is, and nothing reads them: runs
from two states that differ in them differ in them only. -/
def Obligations.ReservedStatusBitsAreInertForTheWholeRun : Prop :=
  ∀ (k : Nat) (s : State),
    (∀ t, runToStop k s = .next t → ∀ b ∈ [0, 2, 3, 4, 5, 6], t.rf.p.getLsbD b = s.rf.p.getLsbD b) ∧
    (∀ v, runToStop k (withReserved v s) = onNext (withReserved v) (runToStop k s))

/-! ## Reset and launch -/

/-- R27: a fresh register file is all zero and the run state starts as Running; the host may instead supply a register
file with any values. (That reset's stream is empty and its parameter false is the model's choice, log entries 1 and 2:
nothing here says it.) -/
def Obligations.ResetIsAllZeroAndTheHostMaySupplyAnyRegisters : Prop :=
  (State.reset.rf.pc = 0 ∧ State.reset.rf.sp = 0 ∧ State.reset.rf.a = 0 ∧ State.reset.rf.x = 0 ∧
    State.reset.rf.y = 0 ∧ State.reset.rf.p = 0 ∧ flagN State.reset.rf.p = false ∧ flagZ State.reset.rf.p = false ∧
    State.reset.run = .running) ∧
  ∀ (cfg : Config) (bs : List Byte) (rf0 : RegFile), bs.length ≤ 0xFFFF →
    ∃ s, launch cfg bs rf0 = .next s ∧ s.rf = rf0 ∧ s.run = .running ∧ s.cfg = cfg ∧ Memory.bytes s.stream = bs

/-- 20_memory.md (the spec's choice D2, log entry 6): a stream of more than 0xFFFF bytes is refused, at the launch and at
a step. -/
def Obligations.StreamLongerThanTheBoundIsRefused : Prop :=
  (∀ (cfg : Config) (bs : List Byte) (rf0 : RegFile), 0xFFFF < bs.length →
    launch cfg bs rf0 = .refused .streamTooLong) ∧
  (∀ s : State, s.run = .running → 0xFFFF < s.stream.length → step s = .refused .streamTooLong)

/-- 70_reset_and_hazards.md: there is no reset vector; a launched run's first step runs the instruction at the supplied
PC, and a PC at or beyond N makes it fault with OutOfBounds(PC) (the spec's choice D3, log entry 7), the registers read after
that fault as the spec's choice D4 leaves them (log entry 5). -/
def Obligations.FirstFetchIsAtTheSuppliedPc : Prop :=
  ∀ (cfg : Config) (bs : List Byte) (rf0 : RegFile), bs.length ≤ 0xFFFF →
    ∃ s, launch cfg bs rf0 = .next s ∧
      (∀ i rest, decode cfg (bs.drop rf0.pc.toNat) = .ok (i, rest) →
        step s = exec i { s with rf := { rf0 with pc := rf0.pc + BitVec.ofNat 16 i.length } }) ∧
      (bs.length ≤ rf0.pc.toNat →
        step s = .next { s with run := .faulted (.outOfBounds rf0.pc) })

/-- Log entry 2 (DESIGN CHOICE): a table word placed by the host runs at the very next step, and placing it changes no
register but, where there is no room for it below the bound, PC. -/
def Obligations.PlacedWordIsTheNextInstructionRun : Prop :=
  ∀ (s : State) (nbits w : Nat) (i : Instr), decodeTableWord nbits w = some i →
    step (s.withFetchWord nbits w) =
      exec i { s.withFetchWord nbits w with rf := { (s.withFetchWord nbits w).rf with
        pc := (s.withFetchWord nbits w).rf.pc + BitVec.ofNat 16 i.length } } ∧
    { (s.withFetchWord nbits w).rf with pc := s.rf.pc } = s.rf ∧
    (s.rf.pc.toNat + 2 ≤ 0xFFFF → (s.withFetchWord nbits w).rf = s.rf)

/-! ## The stream -/

/-- R29: a read answers the byte of the stream at an address below N, and raises OutOfBounds of that address at or past
N. -/
def Obligations.StreamReadIsTheByteOrOutOfBounds : Prop :=
  ∀ (s : State) (addr : Addr), Memory.wf s.stream = true →
    (addr.toNat < s.stream.length → memRead s addr = .ok ((Memory.bytes s.stream).getD addr.toNat 0)) ∧
    (s.stream.length ≤ addr.toNat → memRead s addr = .error (.outOfBounds addr))

/-- R30: nothing writes memory, in an instruction, in a step or in a run: every address reads as before. -/
def Obligations.NothingWritesTheStream : Prop :=
  (∀ (i : Instr) (s t : State), exec i s = .next t →
    t.stream = s.stream ∧ ∀ a, Memory.read t.stream a = Memory.read s.stream a) ∧
  (∀ (s t : State), step s = .next t →
    t.stream = s.stream ∧ ∀ a, Memory.read t.stream a = Memory.read s.stream a) ∧
  (∀ (k : Nat) (s t : State), runToStop k s = .next t →
    t.stream = s.stream ∧ t.cfg = s.cfg ∧ ∀ a, Memory.read t.stream a = Memory.read s.stream a)

/-- R49: the operand fetch reads the byte at PC and then advances PC; where the read fails it raises, and no advanced PC
comes out. -/
def Obligations.OperandFetchReadsThenAdvances : Prop :=
  ∀ s : State, Memory.wf s.stream = true →
    (s.rf.pc.toNat < s.stream.length →
      operandFetch s =
        .ok ((Memory.bytes s.stream).getD s.rf.pc.toNat 0, { s with rf := { s.rf with pc := s.rf.pc + 1 } })) ∧
    (s.stream.length ≤ s.rf.pc.toNat → operandFetch s = .error (.outOfBounds s.rf.pc))

/-! ## Encoding and decoding -/

/-- R44: the opcode map. -/
def Obligations.OpcodeMapIsTheFourIdentities : Prop :=
  ∀ (cfg : Config) (op : Byte) (a : Addr),
    decodeAt cfg op a =
      if op = 0xA9 then .ok .ldaImm
      else if op = 0xAA then .ok .tax
      else if op = 0x00 then .ok .brk
      else if op = 0xE8 then (if cfg.inxImplemented then .ok .inx else .error (.unsupportedOpcode op a))
      else .error (.unsupportedOpcode op a)

/-- R45: with INX_IMPLEMENTED false the illegal bytes are 0x01–0xA8 and 0xAB–0xFF, 253 values; with it true they are the
same set without 0xE8, 252 values; each raises UnsupportedOpcode. -/
def Obligations.EveryOtherOpcodeByteIsIllegal : Prop :=
  (∀ op : Byte, decodeOpcode { inxImplemented := false } op = none ↔
    (0x01 ≤ op.toNat ∧ op.toNat ≤ 0xA8) ∨ (0xAB ≤ op.toNat ∧ op.toNat ≤ 0xFF)) ∧
  (∀ op : Byte, decodeOpcode { inxImplemented := true } op = none ↔
    ((0x01 ≤ op.toNat ∧ op.toNat ≤ 0xA8) ∨ (0xAB ≤ op.toNat ∧ op.toNat ≤ 0xFF)) ∧ op ≠ 0xE8) ∧
  ((List.range 256).countP fun n => (decodeOpcode { inxImplemented := false } (BitVec.ofNat 8 n)).isNone) = 253 ∧
  ((List.range 256).countP fun n => (decodeOpcode { inxImplemented := true } (BitVec.ofNat 8 n)).isNone) = 252 ∧
  (∀ (cfg : Config) (op : Byte) (a : Addr), decodeOpcode cfg op = none →
    decodeAt cfg op a = .error (.unsupportedOpcode op a))

/-- R41: an instruction is one opcode byte and zero or one operand bytes, and the opcode byte alone fixes the length: 2
for LDA #imm, 1 for every other; decoding consumes exactly that many bytes. -/
def Obligations.OpcodeByteFixesTheLength : Prop :=
  (∀ i : Instr, (encode i).length = if (encode i).head? = some 0xA9 then 2 else 1) ∧
  (∀ (cfg : Config) (op : Byte) (bs : List Byte) (i : Instr) (rest : List Byte),
    decode cfg (op :: bs) = .ok (i, rest) →
      (op :: bs).length = rest.length + (if op = 0xA9 then 2 else 1))

/-- R43: the immediate is byte 1 as it stands, and it is the value that reaches the 8-bit destination. -/
def Obligations.ImmediateIsByteOneAsItStands : Prop :=
  ∀ (cfg : Config) (v : Byte) (rest : List Byte) (s : State),
    decode cfg (0xA9 :: v :: rest) = .ok (.lda v, rest) ∧
    ∃ t, exec (.lda v) s = .next t ∧ t.rf.a = v

/-- 30_encoding.md: decoding the encoding of an instruction that exists gives it back, with the bytes after it, for every
operand. -/
def Obligations.DecodeOfEncodeIsTheInstruction : Prop :=
  ∀ (cfg : Config) (i : Instr) (rest : List Byte), WellFormed cfg i = true →
    decode cfg (encode i ++ rest) = .ok (i, rest)

/-- 30_encoding.md: what the decoder answers exists on the machine, and the bytes it consumed are its encoding, so each
encoding has one meaning. -/
def Obligations.DecodedBytesAreTheEncoding : Prop :=
  ∀ (cfg : Config) (bs : List Byte) (i : Instr) (rest : List Byte), decode cfg bs = .ok (i, rest) →
    WellFormed cfg i = true ∧ bs = encode i ++ rest

/-- 30_encoding.md, the encodings of R42 and R53 written out. -/
def Obligations.WordsOfTheSpecDecode : Prop :=
  ∀ cfg : Config,
    decode cfg [0b10101001, 0b10000000] = .ok (.lda 0x80, []) ∧
    decode cfg [0b10101010] = .ok (.tax, []) ∧
    decode cfg [0b00000000] = .ok (.brk, []) ∧
    decode { inxImplemented := true } [0b11101000] = .ok (.inx, []) ∧
    decode { inxImplemented := false } [0b11101000] = .error (.unsupportedOpcode 0xE8) ∧
    decode cfg [0b10101001] = .error .noOperand

/-! ## The step -/

/-- 30_encoding.md: the step's fetch, which reads the stream byte by byte through PC, is the decoder on the bytes of the
stream from PC on, with R64's order of faults. -/
def Obligations.FetchAgreesWithTheDecoderOnTheStream : Prop :=
  ∀ s : State, StreamOk s →
    fetch s =
      match decode s.cfg ((Memory.bytes s.stream).drop s.rf.pc.toNat) with
      | .ok (i, _) => .ok (i, { s with rf := { s.rf with pc := s.rf.pc + BitVec.ofNat 16 i.length } })
      | .error .noOpcode => .error (.outOfBounds s.rf.pc)
      | .error (.unsupportedOpcode op) => .error (.unsupportedOpcode op s.rf.pc)
      | .error .noOperand => .error (.outOfBounds (s.rf.pc + 1))

/-- 30_encoding.md: when the bytes at PC decode to an instruction, a step is that instruction's effect on the state whose
PC is past its bytes. -/
def Obligations.StepRunsTheDecodedInstruction : Prop :=
  ∀ (s : State) (i : Instr) (rest : List Byte), Ready s →
    decode s.cfg ((Memory.bytes s.stream).drop s.rf.pc.toNat) = .ok (i, rest) →
    step s = exec i { s with rf := { s.rf with pc := s.rf.pc + BitVec.ofNat 16 i.length } }

/-- 30_encoding.md, 60_exceptions.md: a Running core on a legal stream always steps; no data and no byte makes the model
stop. That a fault taken is a next state is log entry 4 (DEDUCED); that a legal stream has N ≤ 0xFFFF is the spec's choice D2
(log entry 6). -/
def Obligations.ReadyCoreAlwaysSteps : Prop :=
  ∀ s : State, Ready s → ∃ t, step s = .next t

/-- 30_encoding.md, 41_control.md: a step moves PC past the instruction's bytes, without wrapping and never past N, or
faults and leaves it. That PC is back at the opcode after a fault is the spec's choice D4 (log entry 5, DEDUCED, unsafe); that
it cannot wrap rests on the bound of the spec's choice D2 (log entry 6). -/
def Obligations.PcMovesOnlyPastTheInstruction : Prop :=
  ∀ s t : State, StreamOk s → step s = .next t →
    (t.rf.pc = s.rf.pc ∧ ∃ e, t.run = .faulted e) ∨
    (t.rf.pc.toNat = s.rf.pc.toNat + (if Memory.read s.stream s.rf.pc.toNat = some 0xA9 then 2 else 1) ∧
      t.rf.pc.toNat ≤ s.stream.length ∧ ∀ e, t.run ≠ .faulted e)

/-! ## The instructions -/

/-- 40_load_transfer.md, LDA: its own effect completes in every state, for every operand: A is the operand, the flags are
the new A's, and nothing else changes (PC, which the fetch has moved past the instruction, is kept: log entry 9). -/
def Obligations.LdaCompletesWithItsResultAndFrame : Prop :=
  ∀ (v : Byte) (s : State), ∃ t, exec (.lda v) s = .next t ∧
    t.rf.a = v ∧ FlagsSetFrom s.rf.p t.rf.p v ∧ t.rf.pc = s.rf.pc ∧
    t.rf.x = s.rf.x ∧ t.rf.y = s.rf.y ∧ t.rf.sp = s.rf.sp ∧ t.run = s.run ∧ t.cfg = s.cfg ∧
    ∀ a, Memory.read t.stream a = Memory.read s.stream a

/-- 40_load_transfer.md, TAX: its own effect completes in every state: X is A, the flags are the new X's, and nothing else
changes (PC, which the fetch has moved past the instruction, is kept: log entry 9). -/
def Obligations.TaxCompletesWithItsResultAndFrame : Prop :=
  ∀ s : State, ∃ t, exec .tax s = .next t ∧
    t.rf.x = s.rf.a ∧ FlagsSetFrom s.rf.p t.rf.p s.rf.a ∧ t.rf.pc = s.rf.pc ∧
    t.rf.a = s.rf.a ∧ t.rf.y = s.rf.y ∧ t.rf.sp = s.rf.sp ∧ t.run = s.run ∧ t.cfg = s.cfg ∧
    ∀ a, Memory.read t.stream a = Memory.read s.stream a

/-- 41_control.md, BRK: its own effect completes in every state: the run state is Halted, and no register changes. -/
def Obligations.BrkCompletesWithItsResultAndFrame : Prop :=
  ∀ s : State, ∃ t, exec .brk s = .next t ∧
    t.run = .halted ∧ t.rf = s.rf ∧ t.cfg = s.cfg ∧
    ∀ a, Memory.read t.stream a = Memory.read s.stream a

/-- 42_increment.md, INX: its own effect completes in every state of a machine that has it (the spec's parameter D5, log
entry 1): X is X + 1 modulo 256, the flags are the new X's, and nothing else changes (PC, which the fetch has moved past the
instruction, is kept: log entry 9). -/
def Obligations.InxCompletesWithItsResultAndFrame : Prop :=
  ∀ s : State, s.cfg.inxImplemented = true → ∃ t, exec .inx s = .next t ∧
    t.rf.x.toNat = (s.rf.x.toNat + 1) % 256 ∧ FlagsSetFrom s.rf.p t.rf.p t.rf.x ∧ t.rf.pc = s.rf.pc ∧
    t.rf.a = s.rf.a ∧ t.rf.y = s.rf.y ∧ t.rf.sp = s.rf.sp ∧ t.run = s.run ∧ t.cfg = s.cfg ∧
    ∀ a, Memory.read t.stream a = Memory.read s.stream a

/-- 40_load_transfer.md, LDA in a step: with its operand in the stream it loads it and PC ends 2 further; as the last byte
of the stream it faults with OutOfBounds(a + 1) and the register file is as before (the spec's choice D4, log entry 5). -/
def Obligations.LdaStepLoadsItsOperandOrFaults : Prop :=
  ∀ s : State, Ready s → Memory.read s.stream s.rf.pc.toNat = some 0xA9 →
    (∀ v, Memory.read s.stream (s.rf.pc.toNat + 1) = some v →
      ∃ t, step s = .next t ∧
        t.rf.a = v ∧ FlagsSetFrom s.rf.p t.rf.p v ∧ t.rf.pc.toNat = s.rf.pc.toNat + 2 ∧
        t.rf.x = s.rf.x ∧ t.rf.y = s.rf.y ∧ t.rf.sp = s.rf.sp ∧ t.run = .running ∧
        t.stream = s.stream ∧ t.cfg = s.cfg) ∧
    (s.stream.length ≤ s.rf.pc.toNat + 1 →
      ∃ addr : Addr, addr.toNat = s.rf.pc.toNat + 1 ∧
        step s = .next { s with run := .faulted (.outOfBounds addr) })

/-- R55, TAX in a step. -/
def Obligations.TaxStepCopiesAIntoX : Prop :=
  ∀ s : State, Ready s → Memory.read s.stream s.rf.pc.toNat = some 0xAA →
    ∃ t, step s = .next t ∧
      t.rf.x = s.rf.a ∧ FlagsSetFrom s.rf.p t.rf.p s.rf.a ∧ t.rf.pc.toNat = s.rf.pc.toNat + 1 ∧
      t.rf.a = s.rf.a ∧ t.rf.y = s.rf.y ∧ t.rf.sp = s.rf.sp ∧ t.run = .running ∧
      t.stream = s.stream ∧ t.cfg = s.cfg

/-- R56, BRK in a step: the run is Halted with PC past the opcode and every other register as it was, the last byte of the
stream included, and no later step runs. -/
def Obligations.BrkStepHaltsTheRunForGood : Prop :=
  ∀ s : State, Ready s → Memory.read s.stream s.rf.pc.toNat = some 0x00 →
    ∃ t, step s = .next t ∧
      t.run = .halted ∧ t.rf.pc.toNat = s.rf.pc.toNat + 1 ∧
      t.rf.a = s.rf.a ∧ t.rf.x = s.rf.x ∧ t.rf.y = s.rf.y ∧ t.rf.sp = s.rf.sp ∧ t.rf.p = s.rf.p ∧
      t.stream = s.stream ∧ t.cfg = s.cfg ∧
      (∀ u, step t ≠ .next u) ∧ ∀ k, runToStop k t = .next t

/-- 42_increment.md, byte 0xE8 in a step (the spec's parameter D5, log entry 1): increment-X where INX_IMPLEMENTED is true,
UnsupportedOpcode where it is false, with the whole register file, PC included, as before the step (the spec's choice D4, log
entry 5, DEDUCED, unsafe). -/
def Obligations.IncrementOpcodeRunsOnlyWhereImplemented : Prop :=
  ∀ s : State, Ready s → Memory.read s.stream s.rf.pc.toNat = some 0xE8 →
    (s.cfg.inxImplemented = true →
      ∃ t, step s = .next t ∧
        t.rf.x.toNat = (s.rf.x.toNat + 1) % 256 ∧ FlagsSetFrom s.rf.p t.rf.p t.rf.x ∧
        t.rf.pc.toNat = s.rf.pc.toNat + 1 ∧
        t.rf.a = s.rf.a ∧ t.rf.y = s.rf.y ∧ t.rf.sp = s.rf.sp ∧ t.run = .running ∧
        t.stream = s.stream ∧ t.cfg = s.cfg) ∧
    (s.cfg.inxImplemented = false →
      step s = .next { s with run := .faulted (.unsupportedOpcode 0xE8 s.rf.pc) })

/-- R14: only LDA writes A, and only TAX reads it: every other instruction, from a state with another A, does the same to
everything but A. -/
def Obligations.OnlyLdaWritesAAndOnlyTaxReadsIt : Prop :=
  (∀ (i : Instr) (s t : State), exec i s = .next t → t.rf.a ≠ s.rf.a → ∃ v, i = .lda v) ∧
  (∀ (i : Instr) (s t : State) (a' : Byte), i ≠ .tax → exec i s = .next t →
    ∃ t', exec i { s with rf := { s.rf with a := a' } } = .next t' ∧
      { t' with rf := { t'.rf with a := t.rf.a } } = t ∧ ((∃ v, i = .lda v) → t' = t))

/-- R15: only TAX and INX write X, and only INX reads it. -/
def Obligations.OnlyTaxAndInxWriteXAndOnlyInxReadsIt : Prop :=
  (∀ (i : Instr) (s t : State), exec i s = .next t → t.rf.x ≠ s.rf.x → i = .tax ∨ i = .inx) ∧
  (∀ (i : Instr) (s t : State) (x' : Byte), i ≠ .inx → exec i s = .next t →
    ∃ t', exec i { s with rf := { s.rf with x := x' } } = .next t' ∧
      { t' with rf := { t'.rf with x := t.rf.x } } = t ∧ (i = .tax → t' = t))

/-- 10_state.md: SP and Y are inert storage for the whole run: never written, and never read (runs from two states that
differ in them differ in them only). Where the run ends in a fault the registers are read as the spec's choice D4 leaves them
(log entry 5). -/
def Obligations.StackPointerAndYAreInertForTheWholeRun : Prop :=
  ∀ (k : Nat) (s : State),
    (∀ t, runToStop k s = .next t → t.rf.sp = s.rf.sp ∧ t.rf.y = s.rf.y) ∧
    (∀ sp y, runToStop k (withSpY sp y s) = onNext (withSpY sp y) (runToStop k s))

/-- 70_reset_and_hazards.md: no hazard: TAX right after LDA sees the loaded A, and the flags are the loaded value's. -/
def Obligations.TaxAfterLdaSeesTheLoadedValue : Prop :=
  ∀ (s : State) (v : Byte), Ready s →
    Memory.read s.stream s.rf.pc.toNat = some 0xA9 →
    Memory.read s.stream (s.rf.pc.toNat + 1) = some v →
    Memory.read s.stream (s.rf.pc.toNat + 2) = some 0xAA →
    ∃ t, runToStop 2 s = .next t ∧ t.rf.a = v ∧ t.rf.x = v ∧ FlagsSetFrom s.rf.p t.rf.p v ∧
      t.rf.pc.toNat = s.rf.pc.toNat + 3 ∧ t.run = .running

/-! ## Faults and stops -/

/-- R61: a byte at PC that is no identity raises UnsupportedOpcode with that byte and its address, before any operand is
read, so the last byte of the stream too. -/
def Obligations.IllegalOpcodeRaisesUnsupportedOpcode : Prop :=
  ∀ (s : State) (op : Byte), Ready s → Memory.read s.stream s.rf.pc.toNat = some op →
    op ≠ 0xA9 → op ≠ 0xAA → op ≠ 0x00 → (op = 0xE8 → s.cfg.inxImplemented = false) →
    ∃ t, step s = .next t ∧ t.run = .faulted (.unsupportedOpcode op s.rf.pc)

/-- 60_exceptions.md (the spec's choice D3, log entry 7): a step faults with OutOfBounds in exactly two places, an opcode
fetch at PC ≥ N and the operand fetch of an LDA that is the last byte. -/
def Obligations.OutOfBoundsArisesInExactlyTwoPlaces : Prop :=
  ∀ (s t : State) (addr : Addr), Ready s → step s = .next t →
    (t.run = .faulted (.outOfBounds addr) ↔
      (s.stream.length ≤ s.rf.pc.toNat ∧ addr = s.rf.pc) ∨
      (s.rf.pc.toNat + 1 = s.stream.length ∧ Memory.read s.stream s.rf.pc.toNat = some 0xA9 ∧
        addr.toNat = s.stream.length))

/-- R65: fault entry sets the run state to Faulted(e) and ends the run; nothing but the record is saved, and no step
leaves it; a step whose fetch raises e ends Faulted(e). What the registers are after such a step is not said here:
FaultingStepChangesNoRegister says it. -/
def Obligations.FaultEntryEndsTheRun : Prop :=
  ∀ (s : State) (e : FaultRecord),
    raise s e = { s with run := .faulted e } ∧
    (∀ u, step (raise s e) ≠ .next u) ∧ (∀ k, runToStop k (raise s e) = .next (raise s e)) ∧
    (∀ s1, s1.run = .running → Memory.fits s1.stream = true → fetch s1 = .error e →
      ∃ t, step s1 = .next t ∧ t.run = .faulted e)

/-- 60_exceptions.md (the spec's choice D4, log entry 5): faults are precise: a step that ends Faulted changes nothing but
the run state, and so does every step whose fetch raises. -/
def Obligations.FaultingStepChangesNoRegister : Prop :=
  (∀ (s t : State) (e : FaultRecord), step s = .next t → t.run = .faulted e →
    t = { s with run := .faulted e }) ∧
  (∀ (s : State) (e : FaultRecord), s.run = .running → Memory.fits s.stream = true → fetch s = .error e →
    step s = .next { s with run := .faulted e })

/-- 10_state.md (the spec's choice D8, log entry 4): Halted and Faulted have no step; the model is stuck, by name. -/
def Obligations.StoppedCoreIsStuck : Prop :=
  (∀ s : State, s.run = .halted → step s = .fault .stuckHalted) ∧
  (∀ (s : State) (e : FaultRecord), s.run = .faulted e → step s = .fault (.stuckFaulted e))

/-- 10_state.md, 41_control.md: Halted is reached exactly by executing BRK. -/
def Obligations.HaltedIsReachedExactlyByBrk : Prop :=
  ∀ s t : State, Ready s → step s = .next t →
    (t.run = .halted ↔ Memory.read s.stream s.rf.pc.toNat = some 0x00)

/-! ## The whole machine -/

/-- 10_state.md, 20_memory.md, 60_exceptions.md: every step keeps the invariant: the stream is N ≤ 0xFFFF bytes at 0 to
N-1, a Halted core's PC is just past a BRK, and a Faulted core's record is the fault the instruction at PC has. That PC stands at the
faulting opcode after a fault is the spec's choice D4 (log entry 5, DEDUCED, unsafe); the bound on N is D2 (log entry 6); that
the end of the stream is OutOfBounds is D3 (log entry 7). -/
def Obligations.EveryStepKeepsTheInvariant : Prop :=
  ∀ s t : State, Inv s → step s = .next t → Inv t

/-- 70_reset_and_hazards.md, 10_state.md: the invariant holds at reset and after every launch. That a launched stream has
N ≤ 0xFFFF is the spec's choice D2 (log entry 6: launch refuses a longer one); that reset's stream is empty is log entry 2
(DESIGN CHOICE). -/
def Obligations.ResetAndEveryLaunchMeetTheInvariant : Prop :=
  Inv State.reset ∧
  ∀ (cfg : Config) (bs : List Byte) (rf0 : RegFile) (s : State), launch cfg bs rf0 = .next s → Inv s

/-- 30_encoding.md: every run ends after at most max(N − PC₀, 0) + 1 steps, Halted or Faulted. That the end of the stream is a
fault is the spec's choice D3 (log entry 7); that PC cannot wrap rests on D2 (log entry 6). -/
def Obligations.EveryRunEndsWithinTheBound : Prop :=
  ∀ s : State, Ready s →
    ∃ t, runToStop (s.stream.length - s.rf.pc.toNat + 1) s = .next t ∧ Stopped t

/-- 41_control.md, 10_state.md: no register and no flag can change the path: runs that start with the same PC, stream and
parameter go the same way, step for step, whatever A, X, Y, SP and P hold. Where both
runs end in a fault, PC is read as the spec's choice D4 leaves it (log entry 5). -/
def Obligations.NoRegisterOrFlagChangesThePath : Prop :=
  ∀ (k : Nat) (s t : State), SameControl s t → SameControlOutcome (runToStop k s) (runToStop k t)

/-- 41_control.md, 30_encoding.md: control flow is straight-line: from a PC at which the encodings of any instructions of
the machine stand one after another, BRK apart, the run is their effects in that order. -/
def Obligations.RunOfEncodedInstructionsIsTheirEffectsInOrder : Prop :=
  ∀ (is : List Instr) (pre post : List Byte) (s : State),
    s.run = .running → s.stream = Memory.ofBytes (pre ++ is.flatMap encode ++ post) →
    Memory.fits s.stream = true → s.rf.pc.toNat = pre.length →
    (∀ i ∈ is, WellFormed s.cfg i = true ∧ i ≠ .brk) →
    runToStop is.length s = execAll is s
end

