-- ==== Sys2Proof/Laws/Decode.lean ====
section
/-! SUPPORT. The opcode map read as R44's case list. -/

namespace Sys2Proof

/-- The opcode map, byte by byte. -/
theorem decodeOpcode_eq (cfg : Config) (op : Byte) :
    decodeOpcode cfg op =
      if op = 0xA9 then some .ldaImm
      else if op = 0xAA then some .tax
      else if op = 0x00 then some .brk
      else if op = 0xE8 ∧ cfg.inxImplemented = true then some .inx
      else none := by
  simp only [decodeOpcode, Identity.all, List.find?, Identity.available, Identity.opcode, Bool.true_and]
  split_ifs with h1 h2 h3 h4
  · subst h1; rfl
  · subst h2; rfl
  · subst h3; rfl
  · obtain ⟨rfl, h⟩ := h4; simp [h]
  · simp only [not_and] at h4
    have e1 : ((0xA9 : Byte) == op) = false := by simpa using fun h => h1 h.symm
    have e2 : ((0xAA : Byte) == op) = false := by simpa using fun h => h2 h.symm
    have e3 : ((0x00 : Byte) == op) = false := by simpa using fun h => h3 h.symm
    have e4 : (cfg.inxImplemented && (0xE8 : Byte) == op) = false := by
      by_cases h : op = 0xE8
      · simp [h4 h]
      · simpa using fun _ h' => h (Eq.symm h')
    simp only [e1, e2, e3, e4]

/-- A byte that decodes is the opcode of the identity it decodes to. -/
theorem opcode_of_decodeOpcode {cfg : Config} {op : Byte} {id : Identity}
    (h : decodeOpcode cfg op = some id) : op = id.opcode ∧ id.available cfg = true := by
  have := List.find?_some h
  simp only [Bool.and_eq_true, beq_iff_eq] at this
  exact ⟨this.2.symm, this.1⟩

end Sys2Proof
end

