-- ==== Sys2Proof/Laws/State.lean ====
section
/-! SUPPORT. What each named update of the state does to each field. -/

namespace Sys2Proof.Machine

open Sys2Proof

section Rf

variable (s : State) (v : Byte)

@[simp] theorem advancePc_pc : (advancePc s).rf.pc = s.rf.pc + 1 := rfl
@[simp] theorem advancePc_sp : (advancePc s).rf.sp = s.rf.sp := rfl
@[simp] theorem advancePc_a : (advancePc s).rf.a = s.rf.a := rfl
@[simp] theorem advancePc_x : (advancePc s).rf.x = s.rf.x := rfl
@[simp] theorem advancePc_y : (advancePc s).rf.y = s.rf.y := rfl
@[simp] theorem advancePc_p : (advancePc s).rf.p = s.rf.p := rfl
@[simp] theorem advancePc_run : (advancePc s).run = s.run := rfl
@[simp] theorem advancePc_stream : (advancePc s).stream = s.stream := rfl
@[simp] theorem advancePc_cfg : (advancePc s).cfg = s.cfg := rfl

@[simp] theorem writeA_pc : (writeA v s).rf.pc = s.rf.pc := rfl
@[simp] theorem writeA_sp : (writeA v s).rf.sp = s.rf.sp := rfl
@[simp] theorem writeA_a : (writeA v s).rf.a = v := rfl
@[simp] theorem writeA_x : (writeA v s).rf.x = s.rf.x := rfl
@[simp] theorem writeA_y : (writeA v s).rf.y = s.rf.y := rfl
@[simp] theorem writeA_p : (writeA v s).rf.p = s.rf.p := rfl
@[simp] theorem writeA_run : (writeA v s).run = s.run := rfl
@[simp] theorem writeA_stream : (writeA v s).stream = s.stream := rfl
@[simp] theorem writeA_cfg : (writeA v s).cfg = s.cfg := rfl

@[simp] theorem writeX_pc : (writeX v s).rf.pc = s.rf.pc := rfl
@[simp] theorem writeX_sp : (writeX v s).rf.sp = s.rf.sp := rfl
@[simp] theorem writeX_a : (writeX v s).rf.a = s.rf.a := rfl
@[simp] theorem writeX_x : (writeX v s).rf.x = v := rfl
@[simp] theorem writeX_y : (writeX v s).rf.y = s.rf.y := rfl
@[simp] theorem writeX_p : (writeX v s).rf.p = s.rf.p := rfl
@[simp] theorem writeX_run : (writeX v s).run = s.run := rfl
@[simp] theorem writeX_stream : (writeX v s).stream = s.stream := rfl
@[simp] theorem writeX_cfg : (writeX v s).cfg = s.cfg := rfl

@[simp] theorem updateFlags_pc : (updateFlags v s).rf.pc = s.rf.pc := rfl
@[simp] theorem updateFlags_sp : (updateFlags v s).rf.sp = s.rf.sp := rfl
@[simp] theorem updateFlags_a : (updateFlags v s).rf.a = s.rf.a := rfl
@[simp] theorem updateFlags_x : (updateFlags v s).rf.x = s.rf.x := rfl
@[simp] theorem updateFlags_y : (updateFlags v s).rf.y = s.rf.y := rfl
@[simp] theorem updateFlags_p : (updateFlags v s).rf.p = updatedStatus s.rf.p v := rfl
@[simp] theorem updateFlags_run : (updateFlags v s).run = s.run := rfl
@[simp] theorem updateFlags_stream : (updateFlags v s).stream = s.stream := rfl
@[simp] theorem updateFlags_cfg : (updateFlags v s).cfg = s.cfg := rfl

@[simp] theorem halt_rf : (halt s).rf = s.rf := rfl
@[simp] theorem halt_run : (halt s).run = .halted := rfl
@[simp] theorem halt_stream : (halt s).stream = s.stream := rfl
@[simp] theorem halt_cfg : (halt s).cfg = s.cfg := rfl

variable (e : FaultRecord)

@[simp] theorem raise_rf : (raise s e).rf = s.rf := rfl
@[simp] theorem raise_run : (raise s e).run = .faulted e := rfl
@[simp] theorem raise_stream : (raise s e).stream = s.stream := rfl
@[simp] theorem raise_cfg : (raise s e).cfg = s.cfg := rfl

end Rf

end Sys2Proof.Machine
end

