-- ==== Sys2Proof/Laws/Exec.lean ====
section
/-! SUPPORT. Everything that executing, fetching and stepping can do, said once each. -/

namespace Sys2Proof.Machine

open Sys2Proof

/-- The effect of an instruction as a function of states (`exec` always answers it). -/
def effect : Instr → State → State
  | .lda imm, s => updateFlags imm (writeA imm s)
  | .tax, s => updateFlags s.rf.a (writeX s.rf.a s)
  | .brk, s => halt s
  | .inx, s => updateFlags (s.rf.x + 1) (writeX (s.rf.x + 1) s)

theorem exec_eq_effect (i : Instr) (s : State) : exec i s = .next (effect i s) := by
  cases i <;> rfl

/-- What a read of the stream can answer. -/
theorem memRead_cases (s : State) (a : Addr) :
    (∃ b, Memory.read s.stream a.toNat = some b ∧ memRead s a = .ok b) ∨
    (Memory.read s.stream a.toNat = none ∧ memRead s a = .error (.outOfBounds a)) := by
  unfold memRead
  cases Memory.read s.stream a.toNat with
  | some b => exact .inl ⟨b, rfl, rfl⟩
  | none => exact .inr ⟨rfl, rfl⟩

/-- What the fetch can answer: one of three faults in the order of R64, or an instruction with PC past its bytes. -/
theorem fetch_cases (s : State) :
    (Memory.read s.stream s.rf.pc.toNat = none ∧ fetch s = .error (.outOfBounds s.rf.pc)) ∨
    (∃ op, Memory.read s.stream s.rf.pc.toNat = some op ∧
      ((decodeOpcode s.cfg op = none ∧ fetch s = .error (.unsupportedOpcode op s.rf.pc)) ∨
       (decodeOpcode s.cfg op = some .ldaImm ∧ Memory.read s.stream (s.rf.pc + 1).toNat = none ∧
          fetch s = .error (.outOfBounds (s.rf.pc + 1))) ∨
       (∃ v, decodeOpcode s.cfg op = some .ldaImm ∧ Memory.read s.stream (s.rf.pc + 1).toNat = some v ∧
          fetch s = .ok (.lda v, advancePc (advancePc s))) ∨
       (∃ i, i.operands = [] ∧ decodeOpcode s.cfg op = some i.identity ∧
          fetch s = .ok (i, advancePc s)))) := by
  obtain ⟨op, hop, h⟩ | ⟨hop, h⟩ := memRead_cases s s.rf.pc
  · refine .inr ⟨op, hop, ?_⟩
    simp only [fetch, h, decodeAt]
    cases hd : decodeOpcode s.cfg op with
    | none => exact .inl ⟨rfl, rfl⟩
    | some id =>
      cases id with
      | ldaImm =>
        obtain ⟨v, hv, h'⟩ | ⟨hv, h'⟩ := memRead_cases (advancePc s) (advancePc s).rf.pc
        · exact .inr (.inr (.inl ⟨v, rfl, hv, by simp only [fetchOperands, operandFetch, h']⟩))
        · exact .inr (.inl ⟨rfl, hv, by simp only [fetchOperands, operandFetch, h']; rfl⟩)
      | tax => exact .inr (.inr (.inr ⟨.tax, rfl, rfl, rfl⟩))
      | brk => exact .inr (.inr (.inr ⟨.brk, rfl, rfl, rfl⟩))
      | inx => exact .inr (.inr (.inr ⟨.inx, rfl, rfl, rfl⟩))
  · exact .inl ⟨hop, by simp only [fetch, h]⟩

/-- A step from Running on a stream of legal length: the effect of the fetched instruction, or the fault taken. -/
theorem step_running {s : State} (hr : s.run = .running) (hf : Memory.fits s.stream = true) :
    (∃ i s1, fetch s = .ok (i, s1) ∧ step s = .next (effect i s1)) ∨
    (∃ e, fetch s = .error e ∧ step s = .next (raise s e)) := by
  unfold step
  simp only [hr, hf, if_true]
  cases h : fetch s with
  | ok r => exact .inl ⟨r.1, r.2, rfl, exec_eq_effect _ _⟩
  | error e => exact .inr ⟨e, rfl, rfl⟩

/-- A step that answers a next state began in Running, on a stream of legal length. -/
theorem running_of_step {s t : State} (h : step s = .next t) :
    s.run = .running ∧ Memory.fits s.stream = true := by
  unfold step at h
  cases hr : s.run with
  | halted => simp [hr] at h
  | faulted e => simp [hr] at h
  | running =>
    refine ⟨rfl, ?_⟩
    by_contra hf
    simp [hr, hf] at h

/-- Everything a step that answers a next state can have done. -/
theorem step_cases {s t : State} (h : step s = .next t) :
    (∃ i s1, fetch s = .ok (i, s1) ∧ t = effect i s1) ∨
    (∃ e, fetch s = .error e ∧ t = raise s e) := by
  obtain ⟨hr, hf⟩ := running_of_step h
  obtain ⟨i, s1, hi, hs⟩ | ⟨e, he, hs⟩ := step_running hr hf
  · exact .inl ⟨i, s1, hi, by simpa using h.symm.trans hs⟩
  · exact .inr ⟨e, he, by simpa using h.symm.trans hs⟩

end Sys2Proof.Machine
end

