-- ==== Sys2Proof/Laws/Flags.lean ====
section
/-! SUPPORT. What the status-flag updater does to each bit of P. -/

namespace Sys2Proof.Machine

open Sys2Proof

theorem zeroBit_cases (r : Byte) : (r = 0 ∧ zeroBit r = 1) ∨ (r ≠ 0 ∧ zeroBit r = 0) := by
  unfold zeroBit
  by_cases h : r = 0
  · exact .inl ⟨h, if_pos h⟩
  · exact .inr ⟨h, if_neg h⟩

theorem negativeBit_cases (r : Byte) :
    (r.getLsbD 7 = true ∧ negativeBit r = 1) ∨ (r.getLsbD 7 = false ∧ negativeBit r = 0) := by
  unfold negativeBit
  cases h : r.getLsbD 7
  · exact .inr ⟨rfl, rfl⟩
  · exact .inl ⟨rfl, rfl⟩

/-- Each bit of the updated status: bit 1 says whether the result is 0, bit 7 is the result's bit 7, every other bit is
kept. -/
theorem updatedStatus_bit (p r : Byte) {k : Nat} (hk : k < 8) :
    (updatedStatus p r).getLsbD k =
      if k = 1 then r == 0 else if k = 7 then r.getLsbD 7 else p.getLsbD k := by
  have hk' : k = 0 ∨ k = 1 ∨ k = 2 ∨ k = 3 ∨ k = 4 ∨ k = 5 ∨ k = 6 ∨ k = 7 := by omega
  unfold updatedStatus reservedBits reservedMask
  obtain ⟨hz, hz'⟩ | ⟨hz, hz'⟩ := zeroBit_cases r <;>
    obtain ⟨hn, hn'⟩ | ⟨hn, hn'⟩ := negativeBit_cases r <;>
    rw [hz', hn', hn] <;>
    rcases hk' with rfl | rfl | rfl | rfl | rfl | rfl | rfl | rfl <;>
    simp [hz] <;> exact hz

/-- Z of the updated status says whether the result is 0. -/
theorem flagZ_updatedStatus (p r : Byte) : flagZ (updatedStatus p r) = (r == 0) :=
  updatedStatus_bit p r (by decide : 1 < 8)

/-- N of the updated status is bit 7 of the result. -/
theorem flagN_updatedStatus (p r : Byte) : flagN (updatedStatus p r) = r.getLsbD 7 :=
  updatedStatus_bit p r (by decide : 7 < 8)

/-- The updater sees P through its reserved bits only. -/
theorem updatedStatus_congr {p q : Byte} (h : reservedBits p = reservedBits q) (r : Byte) :
    updatedStatus p r = updatedStatus q r := by
  simp [updatedStatus, h]

end Sys2Proof.Machine
end

