-- ==== Sys2Proof/Laws/Memory.lean ====
section
/-! SUPPORT. The stream: its canonical form, and reading a byte by its index. -/

namespace Sys2Proof.Machine

open Sys2Proof

theorem Memory.wfFrom_fromBytes (n : Nat) (bs : List Byte) :
    Memory.wfFrom n (Memory.fromBytes n bs) = true := by
  induction bs generalizing n with
  | nil => rfl
  | cons b bs ih => simp [Memory.fromBytes, Memory.wfFrom, ih]

/-- A stream made of bytes is in canonical form. -/
theorem Memory.wf_ofBytes (bs : List Byte) : Memory.wf (Memory.ofBytes bs) = true :=
  Memory.wfFrom_fromBytes 0 bs

/-- The host's placing of bytes keeps the canonical form. -/
theorem Memory.wf_overlay (m : Memory) (a : Nat) (bs : List Byte) :
    Memory.wf (Memory.overlay m a bs) = true :=
  Memory.wf_ofBytes _

/-- The stream at reset is in canonical form. -/
theorem wf_reset : Memory.wf State.reset.stream = true := rfl

theorem Memory.rising_of_wfFrom {n : Nat} {m : Memory} (h : Memory.wfFrom n m = true) :
    (m.map Prod.fst).Pairwise (· < ·) ∧ ∀ k ∈ m.map Prod.fst, n ≤ k := by
  induction m generalizing n with
  | nil => simp
  | cons c m ih =>
    obtain ⟨k, b⟩ := c
    simp only [Memory.wfFrom, Bool.and_eq_true, beq_iff_eq] at h
    obtain ⟨rfl, h⟩ := h
    obtain ⟨hp, hle⟩ := ih h
    refine ⟨List.pairwise_cons.mpr ⟨fun j hj => hle j hj, hp⟩, ?_⟩
    rintro j (_ | ⟨_, hj⟩)
    · exact Nat.le_refl k
    · exact Nat.le_of_succ_le (hle j hj)

/-- In canonical form the addresses are strictly rising. -/
theorem Memory.rising_of_wf {m : Memory} (h : Memory.wf m = true) : (m.map Prod.fst).Pairwise (· < ·) :=
  (Memory.rising_of_wfFrom h).1

theorem Memory.bytes_fromBytes (n : Nat) (bs : List Byte) :
    Memory.bytes (Memory.fromBytes n bs) = bs := by
  induction bs generalizing n with
  | nil => rfl
  | cons b bs ih => exact congrArg (b :: ·) (ih (n + 1))

/-- The bytes of a stream made of bytes are those bytes. -/
theorem Memory.bytes_ofBytes (bs : List Byte) : Memory.bytes (Memory.ofBytes bs) = bs :=
  Memory.bytes_fromBytes 0 bs

theorem Memory.length_bytes (m : Memory) : (Memory.bytes m).length = m.length :=
  List.length_map ..

theorem Memory.length_ofBytes (bs : List Byte) : (Memory.ofBytes bs).length = bs.length := by
  rw [← Memory.length_bytes, Memory.bytes_ofBytes]

/-- What `fits` decides. -/
theorem Memory.fits_iff {m : Memory} : Memory.fits m = true ↔ m.length ≤ 0xFFFF :=
  decide_eq_true_iff

/-- The host's placing of bytes keeps the bound on N. -/
theorem Memory.fits_overlay (m : Memory) (a : Nat) (bs : List Byte) :
    Memory.fits (Memory.overlay m a bs) = true := by
  rw [Memory.fits_iff]
  simp only [Memory.overlay, Memory.length_ofBytes, List.length_take]
  exact Nat.min_le_left _ _

theorem Memory.fromBytes_bytes {n : Nat} {m : Memory} (h : Memory.wfFrom n m = true) :
    Memory.fromBytes n (Memory.bytes m) = m := by
  induction m generalizing n with
  | nil => rfl
  | cons c m ih =>
    obtain ⟨k, b⟩ := c
    simp only [Memory.wfFrom, Bool.and_eq_true, beq_iff_eq] at h
    obtain ⟨rfl, h⟩ := h
    exact congrArg ((k, b) :: ·) (ih h)

/-- A stream in canonical form is the stream of its bytes: equal bytes are equal streams. -/
theorem Memory.ofBytes_bytes {m : Memory} (h : Memory.wf m = true) : Memory.ofBytes (Memory.bytes m) = m :=
  Memory.fromBytes_bytes h

theorem Memory.read_fromBytes (n a : Nat) (bs : List Byte) :
    Memory.read (Memory.fromBytes n bs) (n + a) = bs[a]? := by
  induction bs generalizing n a with
  | nil => rfl
  | cons b bs ih =>
    cases a with
    | zero => simp [Memory.fromBytes, Memory.read]
    | succ a =>
      have hk : n ≠ n + (a + 1) := by omega
      have ha : n + (a + 1) = (n + 1) + a := by omega
      simp only [Memory.fromBytes, Memory.read, if_neg hk, List.getElem?_cons_succ]
      rw [ha, ih]

/-- Reading a stream in canonical form at an address is indexing its bytes. -/
theorem Memory.read_eq_index {m : Memory} (h : Memory.wf m = true) (a : Nat) :
    Memory.read m a = (Memory.bytes m)[a]? := by
  have := Memory.read_fromBytes 0 a (Memory.bytes m)
  rwa [Memory.fromBytes_bytes h, Nat.zero_add] at this

/-- An address holds no byte exactly when it is at or past N. -/
theorem Memory.read_eq_none {m : Memory} (h : Memory.wf m = true) (a : Nat) :
    Memory.read m a = none ↔ m.length ≤ a := by
  rw [Memory.read_eq_index h, List.getElem?_eq_none_iff, Memory.length_bytes]

/-- An address that holds a byte is below N. -/
theorem Memory.lt_of_read {m : Memory} (h : Memory.wf m = true) {a : Nat} {b : Byte}
    (hb : Memory.read m a = some b) : a < m.length := by
  by_contra hn
  rw [(Memory.read_eq_none h a).mpr (by omega)] at hb
  cases hb

end Sys2Proof.Machine
end

