-- ==== Sys2Proof/Laws/PerInstr.lean ====
section
/-! SUPPORT. Facts about every instruction as a term, one lemma per constructor. -/

namespace Sys2Proof.Laws

open Sys2Proof

/-- The encoding of an instruction has the length its opcode byte fixes (R41). -/
def EncodingLength.Statement (i : Instr) : Prop := (encode i).length = i.length

theorem EncodingLength.lda (imm : Byte) : EncodingLength.Statement (.lda imm) := rfl
theorem EncodingLength.tax : EncodingLength.Statement .tax := rfl
theorem EncodingLength.brk : EncodingLength.Statement .brk := rfl
theorem EncodingLength.inx : EncodingLength.Statement .inx := rfl

end Sys2Proof.Laws
end

