-- ==== Sys2Proof/Tests/Slice0.lean ====
section
/-! SUPPORT. The model's own tests, with expected results from spec/95_test_vectors.md (each test names its vector) or written
out from the encodings of 30_encoding.md, and one witness for the hypotheses of each statement that has some. -/

namespace Sys2Proof.Tests

open Sys2Proof Sys2Proof.Machine

/-- A Running state on the stream `bs`. -/
def start (inx : Bool) (bs : List Byte) (rf : RegFile) : State :=
  { rf := rf, run := .running, stream := Memory.ofBytes bs, cfg := { inxImplemented := inx } }

/-- A register file in the order of the vectors: `PC A X Y SP P`. -/
def regs (pc : Addr) (a x y sp p : Byte) : RegFile := { pc := pc, sp := sp, a := a, x := x, y := y, p := p }

/-- The register file and run state a step ends in; none where it has no next state. -/
def after : Host.Outcome State Fault Refusal → Option (RegFile × RunState)
  | .next s => some (s.rf, s.run)
  | .fault _ => none
  | .refused _ => none

/-! ## Well-formedness -/

theorem test_wellFormed_refuses_inx_where_not_implemented :
    WellFormed { inxImplemented := false } .inx = false := by decide

theorem test_wellFormed_accepts :
    WellFormed { inxImplemented := true } .inx = true ∧ WellFormed { inxImplemented := false } (.lda 0xFF) = true ∧
    WellFormed { inxImplemented := false } .tax = true ∧ WellFormed { inxImplemented := false } .brk = true := by
  decide

/-! ## Decoding: the encodings of R42, R44 and R53, bit by bit, and the table of L2.6 -/

theorem test_decode_lda : decodeTableWord 16 0b1000000010101001 = some (.lda 0x80) := by decide
theorem test_decode_lda_operand_word_of_zeros : decodeTableWord 8 0b10101001 = some (.lda 0x00) := by decide
theorem test_decode_tax : decodeTableWord 8 0b10101010 = some .tax := by decide
theorem test_decode_brk : decodeTableWord 8 0b00000000 = some .brk := by decide
theorem test_decode_inx : decodeTableWord 8 0b11101000 = some .inx := by decide
theorem test_decode_bits_above_nbits_are_zero : decodeTableWord 8 0xFFAA = some .tax := by decide

theorem test_decode_illegal : ∀ op ∈ [0x01, 0xA8, 0xAB, 0xEA, 0xFF],
    decodeOpcode { inxImplemented := false } op = none ∧ decodeOpcode { inxImplemented := true } op = none := by decide

theorem test_decode_inx_where_not_implemented : decodeOpcode { inxImplemented := false } 0xE8 = none := by decide

theorem test_encode : encode (.lda 0x80) = [0xA9, 0x80] ∧ encode .tax = [0xAA] ∧ encode .brk = [0x00] ∧
    encode .inx = [0xE8] := by decide

/-! ## The updater: L2.1, (P before, r, P after) -/

theorem test_updater_from_clear_status :
    updatedStatus 0x00 0x00 = 0x02 ∧ updatedStatus 0x00 0x7F = 0x00 ∧ updatedStatus 0x00 0x80 = 0x80 := by decide

theorem test_updater_keeps_reserved_and_clears_old_flags :
    updatedStatus 0xFF 0x00 = 0x7F ∧ updatedStatus 0xFF 0x01 = 0x7D ∧ updatedStatus 0x7D 0x80 = 0xFD ∧
    updatedStatus 0x82 0x01 = 0x00 ∧ updatedStatus 0x80 0x00 = 0x02 := by decide

/-! ## One step of each instruction -/

/-- L2.2 LDA-5. -/
theorem test_lda_keeps_reserved_bits :
    after (step (start false [0xA9, 0x01] (regs 0 0 0 0 0 0xFF))) = some (regs 2 0x01 0 0 0 0x7D, .running) := by decide

/-- L2.2 LDA-7. -/
theorem test_lda_missing_operand :
    after (step (start false [0xA9] (regs 0 0x33 0 0 0 0x80))) =
      some (regs 0 0x33 0 0 0 0x80, .faulted (.outOfBounds 1)) := by decide

/-- L2.3 TAX-1. -/
theorem test_tax_zero :
    after (step (start false [0xAA] (regs 0 0x00 0x55 0 0 0x80))) = some (regs 1 0x00 0x00 0 0 0x02, .running) := by
  decide

/-- L2.3 TAX-3. -/
theorem test_tax_keeps_reserved_bits :
    after (step (start false [0xAA] (regs 0 0x7F 0x00 0 0 0xFF))) = some (regs 1 0x7F 0x7F 0 0 0x7D, .running) := by
  decide

/-- L2.4 BRK-2. -/
theorem test_brk_changes_nothing_else :
    after (step (start false [0x00] (regs 0 0x12 0x34 0x56 0x78 0xFF))) =
      some (regs 1 0x12 0x34 0x56 0x78 0xFF, .halted) := by decide

/-- L2.5 INX-6. -/
theorem test_inx_wraps :
    after (step (start true [0xE8] (regs 0 0 0xFF 0 0 0xFF))) = some (regs 1 0 0x00 0 0 0x7F, .running) := by decide

/-- L2.5 INX-2. -/
theorem test_inx_into_negative :
    after (step (start true [0xE8] (regs 0 0 0x7F 0 0 0x00))) = some (regs 1 0 0x80 0 0 0x80, .running) := by decide

/-- L2.5 INX-7. -/
theorem test_inx_not_implemented :
    after (step (start false [0xE8] (regs 0 0 0xFF 0 0 0))) =
      some (regs 0 0 0xFF 0 0 0, .faulted (.unsupportedOpcode 0xE8 0)) := by decide

/-! ## Faults and stops -/

/-- L2.7 F-1: the first step from reset. -/
theorem test_empty_stream :
    after (step State.reset) = some (RegFile.zero, .faulted (.outOfBounds 0)) := by decide

/-- L2.7 F-3. -/
theorem test_unsupported_at_the_last_byte :
    after (step (start false [0xEA] RegFile.zero)) = some (RegFile.zero, .faulted (.unsupportedOpcode 0xEA 0)) := by
  decide

/-- L2.7 F-5. -/
theorem test_pc_beyond_the_stream :
    after (step (start false [0x00, 0x00] (regs 5 0 0 0 0 0))) =
      some (regs 5 0 0 0 0 0, .faulted (.outOfBounds 5)) := by decide

/-- D8: a Halted and a Faulted core have no step. -/
theorem test_stopped_is_stuck :
    step { State.reset with run := .halted } = .fault .stuckHalted ∧
    step { State.reset with run := .faulted (.outOfBounds 7) } = .fault (.stuckFaulted (.outOfBounds 7)) :=
  ⟨rfl, rfl⟩

/-! ## A word placed at reset is what the first step runs -/

theorem test_withFetchWord_lda :
    after (step (State.reset.withFetchWord 16 0x80A9)) = some (regs 2 0x80 0 0 0 0x80, .running) := by decide

theorem test_withFetchWord_inx :
    after (step (State.reset.withFetchWord 8 0xE8)) = some (regs 1 0 0x01 0 0 0, .running) := by decide

/-! ## Witnesses: states and operands that meet the hypotheses of each statement -/

/-- A stream with each opcode: LDA #$80, TAX, INX, BRK. -/
def sample (pc : Addr) : State := start true [0xA9, 0x80, 0xAA, 0xE8, 0x00] (regs pc 0x40 0x7F 1 2 0xFF)

theorem sample_ready (pc : Addr) : Ready (sample pc) := ⟨rfl, Memory.wf_ofBytes _, rfl⟩

theorem witness_FlagsFollowTheRegisterTheInstructionWrote :
    (∃ t, exec (.lda 0x00) (sample 2) = .next t) ∧ (∃ t, exec .tax (sample 3) = .next t) ∧
    (∃ t, exec .inx (sample 4) = .next t) ∧ (∃ t, exec .brk (sample 5) = .next t) :=
  ⟨⟨_, rfl⟩, ⟨_, rfl⟩, ⟨_, rfl⟩, ⟨_, rfl⟩⟩

theorem witness_StatusChangesOnlyThroughTheUpdater :
    (∃ t, step (sample 0) = .next t) ∧ (∃ t, step (sample 4) = .next t) := ⟨⟨_, rfl⟩, ⟨_, rfl⟩⟩

theorem witness_ReservedStatusBitsAreInertForTheWholeRun : ∃ t, runToStop 4 (sample 0) = .next t := ⟨_, rfl⟩

theorem witness_ResetIsAllZeroAndTheHostMaySupplyAnyRegisters : ([0xA9, 0x80] : List Byte).length ≤ 0xFFFF := by decide

theorem witness_StreamLongerThanTheBoundIsRefused :
    0xFFFF < (List.replicate 0x10000 (0x00 : Byte)).length ∧
    (start false (List.replicate 0x10000 0x00) RegFile.zero).run = .running ∧
    0xFFFF < (start false (List.replicate 0x10000 0x00) RegFile.zero).stream.length := by
  have h : 0xFFFF < (List.replicate 0x10000 (0x00 : Byte)).length := by rw [List.length_replicate]; omega
  exact ⟨h, rfl, (Memory.length_ofBytes _).symm ▸ h⟩

theorem witness_FirstFetchIsAtTheSuppliedPc_runs :
    ([0x00, 0xAA] : List Byte).length ≤ 0xFFFF ∧
    decode Config.default (([0x00, 0xAA] : List Byte).drop (regs 1 0 0 0 0 0).pc.toNat) = .ok (.tax, []) :=
  ⟨by decide, rfl⟩

theorem witness_FirstFetchIsAtTheSuppliedPc_beyond :
    ([0x00, 0xAA] : List Byte).length ≤ 0xFFFF ∧
    ([0x00, 0xAA] : List Byte).length ≤ (regs 2 0 0 0 0 0).pc.toNat := by decide

theorem witness_PlacedWordIsTheNextInstructionRun :
    decodeTableWord 16 0xFFA9 = some (.lda 0xFF) ∧ State.reset.rf.pc.toNat + 2 ≤ 0xFFFF := by decide

theorem witness_StreamReadIsTheByteOrOutOfBounds :
    StreamOk (sample 0) ∧ (4 : Addr).toNat < (sample 0).stream.length ∧
    (sample 0).stream.length ≤ (5 : Addr).toNat := by decide

theorem witness_NothingWritesTheStream :
    (∃ t, exec .tax (sample 3) = .next t) ∧ (∃ t, step (sample 2) = .next t) ∧
    (∃ t, runToStop 9 (sample 0) = .next t) := ⟨⟨_, rfl⟩, ⟨_, rfl⟩, ⟨_, rfl⟩⟩

theorem witness_OperandFetchReadsThenAdvances :
    StreamOk (sample 4) ∧ (sample 4).rf.pc.toNat < (sample 4).stream.length ∧
    StreamOk (sample 5) ∧ (sample 5).stream.length ≤ (sample 5).rf.pc.toNat := by decide

theorem witness_EveryOtherOpcodeByteIsIllegal : decodeOpcode Config.default 0xE8 = none := by decide

theorem witness_OpcodeByteFixesTheLength :
    decode Config.default [0xA9, 0x80, 0x00] = .ok (.lda 0x80, [0x00]) ∧
    decode Config.default [0xAA, 0x00] = .ok (.tax, [0x00]) := ⟨rfl, rfl⟩

theorem witness_DecodeOfEncodeIsTheInstruction :
    WellFormed Config.default (.lda 0xFF) = true ∧ WellFormed { inxImplemented := true } .inx = true := by decide

theorem witness_DecodedBytesAreTheEncoding :
    decode { inxImplemented := true } [0xE8, 0x01] = .ok (.inx, [0x01]) := rfl

theorem witness_FetchAgreesWithTheDecoderOnTheStream : StreamOk (sample 0) ∧ StreamOk (sample 5) := by decide

theorem witness_StepRunsTheDecodedInstruction :
    Ready (sample 0) ∧
    decode (sample 0).cfg ((Memory.bytes (sample 0).stream).drop (sample 0).rf.pc.toNat) =
      .ok (.lda 0x80, [0xAA, 0xE8, 0x00]) := ⟨sample_ready 0, rfl⟩

theorem witness_ReadyCoreAlwaysSteps : Ready (sample 0) := sample_ready 0

theorem witness_PcMovesOnlyPastTheInstruction :
    StreamOk (sample 4) ∧ (∃ t, step (sample 4) = .next t) ∧
    StreamOk (sample 5) ∧ (∃ t, step (sample 5) = .next t) := ⟨by decide, ⟨_, rfl⟩, by decide, ⟨_, rfl⟩⟩

theorem witness_InxCompletesWithItsResultAndFrame : (sample 4).cfg.inxImplemented = true := rfl

theorem witness_LdaStepLoadsItsOperandOrFaults_loads :
    Ready (sample 0) ∧ Memory.read (sample 0).stream (sample 0).rf.pc.toNat = some 0xA9 ∧
    Memory.read (sample 0).stream ((sample 0).rf.pc.toNat + 1) = some 0x80 := ⟨sample_ready 0, rfl, rfl⟩

/-- A stream whose last byte is an LDA opcode. -/
def ldaLast : State := start false [0xA9] RegFile.zero

theorem witness_LdaStepLoadsItsOperandOrFaults_faults :
    Ready ldaLast ∧ Memory.read ldaLast.stream ldaLast.rf.pc.toNat = some 0xA9 ∧
    ldaLast.stream.length ≤ ldaLast.rf.pc.toNat + 1 := ⟨⟨rfl, by decide, rfl⟩, rfl, by decide⟩

theorem witness_TaxStepCopiesAIntoX :
    Ready (sample 2) ∧ Memory.read (sample 2).stream (sample 2).rf.pc.toNat = some 0xAA := ⟨sample_ready 2, rfl⟩

theorem witness_BrkStepHaltsTheRunForGood :
    Ready (sample 4) ∧ Memory.read (sample 4).stream (sample 4).rf.pc.toNat = some 0x00 := ⟨sample_ready 4, rfl⟩

/-- A stream of byte 0xE8 on a machine without increment-X. -/
def noInx : State := start false [0xE8] RegFile.zero

theorem witness_IncrementOpcodeRunsOnlyWhereImplemented :
    (Ready (sample 3) ∧ Memory.read (sample 3).stream (sample 3).rf.pc.toNat = some 0xE8 ∧
      (sample 3).cfg.inxImplemented = true) ∧
    (Ready noInx ∧ Memory.read noInx.stream noInx.rf.pc.toNat = some 0xE8 ∧ noInx.cfg.inxImplemented = false) :=
  ⟨⟨sample_ready 3, rfl, rfl⟩, ⟨rfl, by decide, rfl⟩, rfl, rfl⟩

theorem witness_OnlyLdaWritesAAndOnlyTaxReadsIt :
    (∃ t, exec (.lda 0x01) (sample 2) = .next t ∧ t.rf.a ≠ (sample 2).rf.a) ∧
    Instr.inx ≠ .tax ∧ ∃ t, exec .inx (sample 4) = .next t :=
  ⟨⟨_, rfl, by decide⟩, by decide, _, rfl⟩

theorem witness_OnlyTaxAndInxWriteXAndOnlyInxReadsIt :
    (∃ t, exec .tax (sample 3) = .next t ∧ t.rf.x ≠ (sample 3).rf.x) ∧
    Instr.tax ≠ .inx ∧ ∃ t, exec .tax (sample 3) = .next t :=
  ⟨⟨_, rfl, by decide⟩, by decide, _, rfl⟩

theorem witness_StackPointerAndYAreInertForTheWholeRun : ∃ t, runToStop 4 (sample 0) = .next t := ⟨_, rfl⟩

theorem witness_TaxAfterLdaSeesTheLoadedValue :
    Ready (sample 0) ∧ Memory.read (sample 0).stream (sample 0).rf.pc.toNat = some 0xA9 ∧
    Memory.read (sample 0).stream ((sample 0).rf.pc.toNat + 1) = some 0x80 ∧
    Memory.read (sample 0).stream ((sample 0).rf.pc.toNat + 2) = some 0xAA := ⟨sample_ready 0, rfl, rfl, rfl⟩

theorem witness_IllegalOpcodeRaisesUnsupportedOpcode :
    Ready noInx ∧ Memory.read noInx.stream noInx.rf.pc.toNat = some 0xE8 ∧
    (0xE8 : Byte) ≠ 0xA9 ∧ (0xE8 : Byte) ≠ 0xAA ∧ (0xE8 : Byte) ≠ 0x00 ∧
    ((0xE8 : Byte) = 0xE8 → noInx.cfg.inxImplemented = false) :=
  ⟨⟨rfl, by decide, rfl⟩, rfl, by decide, by decide, by decide, fun _ => rfl⟩

theorem witness_OutOfBoundsArisesInExactlyTwoPlaces :
    (Ready (sample 5) ∧ ∃ t, step (sample 5) = .next t ∧ t.run = .faulted (.outOfBounds 5)) ∧
    (Ready ldaLast ∧ ∃ t, step ldaLast = .next t ∧ t.run = .faulted (.outOfBounds 1)) :=
  ⟨⟨sample_ready 5, _, rfl, rfl⟩, ⟨rfl, by decide, rfl⟩, _, rfl, rfl⟩

theorem witness_FaultEntryEndsTheRun :
    noInx.run = .running ∧ Memory.fits noInx.stream = true ∧
    fetch noInx = .error (.unsupportedOpcode 0xE8 0) := ⟨rfl, rfl, rfl⟩

theorem witness_FaultingStepChangesNoRegister :
    (∃ t, step ldaLast = .next t ∧ t.run = .faulted (.outOfBounds 1)) ∧
    ldaLast.run = .running ∧ Memory.fits ldaLast.stream = true ∧ fetch ldaLast = .error (.outOfBounds 1) :=
  ⟨⟨_, rfl, rfl⟩, rfl, rfl, rfl⟩

theorem witness_StoppedCoreIsStuck :
    (halt State.reset).run = .halted ∧ (raise State.reset (.outOfBounds 0)).run = .faulted (.outOfBounds 0) :=
  ⟨rfl, rfl⟩

theorem witness_HaltedIsReachedExactlyByBrk :
    Ready (sample 4) ∧ ∃ t, step (sample 4) = .next t ∧ t.run = .halted := ⟨sample_ready 4, _, rfl, rfl⟩

theorem witness_EveryStepKeepsTheInvariant : Inv (sample 4) ∧ ∃ t, step (sample 4) = .next t :=
  ⟨⟨by decide, trivial⟩, _, rfl⟩

theorem witness_ResetAndEveryLaunchMeetTheInvariant :
    ∃ s, launch Config.default [0xA9, 0x80] RegFile.zero = .next s := ⟨_, rfl⟩

theorem witness_EveryRunEndsWithinTheBound : Ready (sample 0) ∧ Ready (sample 5) := ⟨sample_ready 0, sample_ready 5⟩

theorem witness_NoRegisterOrFlagChangesThePath :
    SameControl (sample 0) (start true [0xA9, 0x80, 0xAA, 0xE8, 0x00] RegFile.zero) := by decide

theorem witness_RunOfEncodedInstructionsIsTheirEffectsInOrder :
    (sample 2).run = .running ∧
    (sample 2).stream = Memory.ofBytes ([0xA9, 0x80] ++ [Instr.tax, .inx].flatMap encode ++ [0x00]) ∧
    Memory.fits (sample 2).stream = true ∧ (sample 2).rf.pc.toNat = ([0xA9, 0x80] : List Byte).length ∧
    ∀ i ∈ [Instr.tax, .inx], WellFormed (sample 2).cfg i = true ∧ i ≠ .brk := by decide

end Sys2Proof.Tests
end

/-! PROOFS. The fetch, the step and the run: what each reads and what each keeps. -/

namespace Sys2Proof.Machine

section Fetch

variable {s t : State} {i : Instr}

@[simp] theorem past_p : (past i s).rf.p = s.rf.p := rfl

theorem memRead_congr (hstream : s.stream = t.stream) (a : Addr) : memRead t a = memRead s a := by
  simp only [memRead, hstream]

theorem past_lda (v : Byte) (s : State) : past (.lda v) s = advancePc (advancePc s) := by
  have two : s.rf.pc + 1 + 1 = s.rf.pc + 2 := BitVec.add_assoc ..
  simp only [advancePc, two]
  rfl

/-- The operands are read through PC and the stream only, and PC ends past the whole instruction. -/
theorem fetchOperands_congr (id : Identity) (hpc : s.rf.pc = t.rf.pc) (hstream : s.stream = t.stream) :
    fetchOperands id (advancePc t) = (fetchOperands id (advancePc s)).map fun r => (r.1, past r.1 t) := by
  cases id with
  | ldaImm =>
    have hread : memRead (advancePc t) (s.rf.pc + 1) = memRead (advancePc s) (s.rf.pc + 1) :=
      memRead_congr hstream (s.rf.pc + 1)
    simp only [fetchOperands, operandFetch, advancePc_pc, ← hpc, hread]
    cases memRead (advancePc s) (s.rf.pc + 1) with
    | error e => rfl
    | ok v => simp only [Except.map, past_lda]
  | tax | brk | inx => rfl

/-- The fetch reads PC, the stream and the parameter only, and moves PC past the instruction: two states that agree on
those three fetch the same instruction, or the same fault. -/
theorem fetch_congr (hpc : s.rf.pc = t.rf.pc) (hstream : s.stream = t.stream) (hcfg : s.cfg = t.cfg) :
    fetch t = (fetch s).map fun r => (r.1, past r.1 t) := by
  simp only [fetch, memRead_congr hstream, ← hpc, ← hcfg]
  cases memRead s s.rf.pc with
  | error e => rfl
  | ok op =>
    dsimp only
    cases decodeAt s.cfg op s.rf.pc with
    | error e => rfl
    | ok id => exact fetchOperands_congr id hpc hstream

/-- A fetch that answers an instruction moves PC past it and changes nothing else. -/
theorem eq_past_of_fetch {s1 : State} (h : fetch s = .ok (i, s1)) : s1 = past i s := by
  have hself : fetch s = (fetch s).map fun r => (r.1, past r.1 s) := fetch_congr rfl rfl rfl
  rw [h] at hself
  simpa [Except.map] using hself

end Fetch

section Run

variable {s t : State}

/-- What a run of `k + 1` steps that answers a state has done: nothing, or a first step and then a run of `k`. -/
theorem runToStop_succ_cases {k : Nat} (h : runToStop (k + 1) s = .next t) :
    (Stopped s ∧ t = s) ∨ ∃ u, step s = .next u ∧ runToStop k u = .next t := by
  unfold runToStop at h
  cases hr : s.run with
  | running =>
    rw [hr] at h
    cases hs : step s with
    | next u => exact .inr ⟨u, rfl, by simpa [hs] using h⟩
    | fault r => simp [hs] at h
    | refused r => simp [hs] at h
  | halted => exact .inl ⟨by simp [hr], by simpa [hr] using h.symm⟩
  | faulted e => exact .inl ⟨by simp [hr], by simpa [hr] using h.symm⟩

/-- What every step keeps, a run keeps. -/
theorem runToStop_keeps {P : State → Prop} (hstep : ∀ s t, P s → step s = .next t → P t) {k : Nat} (hs : P s)
    (h : runToStop k s = .next t) : P t := by
  induction k generalizing s with
  | zero => cases h; exact hs
  | succ k ih =>
    obtain ⟨-, rfl⟩ | ⟨u, hu, hrun⟩ := runToStop_succ_cases h
    · exact hs
    · exact ih (hstep s u hs hu) hrun

end Run

/-- A change of the state that no part of a step can see: it leaves control as it is, and commutes with the PC advance,
with every instruction's effect and with taking a fault. -/
structure Inert (f : State → State) : Prop where
  pc : ∀ s, (f s).rf.pc = s.rf.pc
  run : ∀ s, (f s).run = s.run
  stream : ∀ s, (f s).stream = s.stream
  cfg : ∀ s, (f s).cfg = s.cfg
  past : ∀ i s, past i (f s) = f (past i s)
  effect : ∀ i s, effect i (f s) = f (effect i s)
  raise : ∀ s e, raise (f s) e = f (raise s e)

section Inert

variable {f : State → State}

theorem Inert.fetch (hf : Inert f) (s : State) :
    fetch (f s) = (Machine.fetch s).map fun r => (r.1, Machine.past r.1 (f s)) :=
  fetch_congr (hf.pc s).symm (hf.stream s).symm (hf.cfg s).symm

/-- An inert change commutes with a step. -/
theorem Inert.step (hf : Inert f) (s : State) : step (f s) = onNext f (Machine.step s) := by
  simp only [Machine.step, hf.run, hf.stream, hf.fetch]
  cases s.run with
  | halted => rfl
  | faulted e => rfl
  | running =>
    by_cases hfits : Memory.fits s.stream = true
    · simp only [hfits, if_true]
      cases hfetch : Machine.fetch s with
      | error e => exact congrArg Host.Outcome.next (hf.raise s e)
      | ok r =>
        obtain ⟨i, s1⟩ := r
        simp only [Except.map, exec_eq_effect, eq_past_of_fetch hfetch, hf.past, hf.effect, onNext]
    · simp only [if_neg hfits, onNext]

/-- An inert change commutes with a run. -/
theorem Inert.runToStop (hf : Inert f) (k : Nat) (s : State) :
    runToStop k (f s) = onNext f (Machine.runToStop k s) := by
  induction k generalizing s with
  | zero => rfl
  | succ k ih =>
    simp only [Machine.runToStop, hf.run, hf.step]
    cases s.run with
    | halted => rfl
    | faulted e => rfl
    | running =>
      cases Machine.step s with
      | next t => exact ih t
      | fault r => rfl
      | refused r => rfl

end Inert

end Sys2Proof.Machine

/-! PROOFS. The status register (spec 10_state.md R20 to R23). -/

namespace Sys2Proof.Machine

theorem updatedStatus_eq (p r : Byte) :
    updatedStatus p r =
      (p &&& 0b0111_1101) ||| (if r.getLsbD 7 then 0x80 else 0x00) ||| (if r = 0 then 0x02 else 0x00) := by
  unfold updatedStatus reservedBits reservedMask negativeBit zeroBit
  split_ifs <;> rfl

/-- The updater keeps each reserved bit. -/
theorem updatedStatus_reserved_bit (p r : Byte) {b : Nat} (hb : b ∈ [0, 2, 3, 4, 5, 6]) :
    (updatedStatus p r).getLsbD b = p.getLsbD b := by
  have hk : b < 8 ∧ b ≠ 1 ∧ b ≠ 7 := by revert b; decide
  obtain ⟨hlt, h1, h7⟩ := hk
  rw [updatedStatus_bit p r hlt, if_neg h1, if_neg h7]

theorem flagsSetFrom_updatedStatus (p r : Byte) : FlagsSetFrom p (updatedStatus p r) r :=
  ⟨flagZ_updatedStatus p r, flagN_updatedStatus p r, fun _ hb => updatedStatus_reserved_bit p r hb⟩

/-- A result of 0 has bit 7 clear, so the updater never sets both flags. -/
theorem not_flagZ_and_flagN_updatedStatus (p r : Byte) :
    ¬ (flagZ (updatedStatus p r) = true ∧ flagN (updatedStatus p r) = true) := by
  rw [flagZ_updatedStatus, flagN_updatedStatus, beq_iff_eq]
  rintro ⟨rfl, hneg⟩
  exact absurd hneg (by decide)

/-- What an effect leaves in P: BRK the old status, any other instruction one update from the register it wrote. -/
theorem effect_p_cases (i : Instr) (s : State) :
    (effect i s).rf.p = s.rf.p ∨
    (∃ v, i = .lda v ∧ (effect i s).rf.p = updatedStatus s.rf.p (effect i s).rf.a) ∨
    ((i = .tax ∨ i = .inx) ∧ (effect i s).rf.p = updatedStatus s.rf.p (effect i s).rf.x) := by
  cases i with
  | lda v => exact .inr (.inl ⟨v, rfl, rfl⟩)
  | tax => exact .inr (.inr ⟨.inl rfl, rfl⟩)
  | brk => exact .inl rfl
  | inx => exact .inr (.inr ⟨.inr rfl, rfl⟩)

/-- Settles O3: the fetch and a fault leave P, so a step does to P what the instruction's effect does. -/
theorem statusChangesOnlyThroughTheUpdater : Obligations.StatusChangesOnlyThroughTheUpdater := by
  intro s t h
  obtain ⟨i, s1, hfetch, rfl⟩ | ⟨e, -, rfl⟩ := step_cases h
  · have hp : s1.rf.p = s.rf.p := by rw [eq_past_of_fetch hfetch, past_p]
    obtain hkept | hlda | hx := effect_p_cases i s1
    · exact .inl (hkept.trans hp)
    · rw [hp] at hlda
      exact .inr ⟨i, s1, hfetch, .inl hlda⟩
    · rw [hp] at hx
      exact .inr ⟨i, s1, hfetch, .inr hx⟩
  · exact .inl rfl

theorem step_reserved_bit {s t : State} (h : step s = .next t) {b : Nat} (hb : b ∈ [0, 2, 3, 4, 5, 6]) :
    t.rf.p.getLsbD b = s.rf.p.getLsbD b := by
  obtain hp | ⟨i, s1, -, ⟨v, -, hp⟩ | ⟨-, hp⟩⟩ := statusChangesOnlyThroughTheUpdater s t h
  · rw [hp]
  · rw [hp, updateFlags_p, updatedStatus_reserved_bit _ _ hb]
  · rw [hp, updateFlags_p, updatedStatus_reserved_bit _ _ hb]

theorem withReserved_bit (v : Byte) (s : State) {k : Nat} (hk : k < 8) :
    (withReserved v s).rf.p.getLsbD k = if k = 1 ∨ k = 7 then s.rf.p.getLsbD k else v.getLsbD k := by
  unfold withReserved
  interval_cases k <;> simp

/-- Replacing the reserved bits and updating the flags commute: the one reads no bit the other writes. -/
theorem updateFlags_withReserved (r v : Byte) (s : State) :
    updateFlags r (withReserved v s) = withReserved v (updateFlags r s) := by
  have hp : (updateFlags r (withReserved v s)).rf.p = (withReserved v (updateFlags r s)).rf.p := by
    refine BitVec.eq_of_getLsbD_eq fun k hk => ?_
    rw [withReserved_bit _ _ hk, updateFlags_p, updateFlags_p, updatedStatus_bit _ _ hk,
      updatedStatus_bit _ _ hk, withReserved_bit _ _ hk]
    by_cases h1 : k = 1
    · simp [h1]
    · by_cases h7 : k = 7
      · simp [h7]
      · simp [h1, h7]
  exact congrArg (fun p => { s with rf := { s.rf with p := p } }) hp

/-- R20: no part of a step reads the reserved bits. -/
theorem inert_withReserved (v : Byte) : Inert (withReserved v) where
  pc _ := rfl
  run _ := rfl
  stream _ := rfl
  cfg _ := rfl
  past _ _ := rfl
  effect i s := by
    cases i with
    | lda imm => exact updateFlags_withReserved imm v (writeA imm s)
    | tax => exact updateFlags_withReserved s.rf.a v (writeX s.rf.a s)
    | brk => rfl
    | inx => exact updateFlags_withReserved (s.rf.x + 1) v (writeX (s.rf.x + 1) s)
  raise _ _ := rfl

/-- Settles O4: every step keeps each reserved bit, and replacing them is an inert change. -/
theorem reservedStatusBitsAreInertForTheWholeRun : Obligations.ReservedStatusBitsAreInertForTheWholeRun := by
  intro k s
  refine ⟨fun t h b hb => ?_, fun v => (inert_withReserved v).runToStop k s⟩
  exact runToStop_keeps (P := fun u => u.rf.p.getLsbD b = s.rf.p.getLsbD b)
    (fun _ _ hu hstep => (step_reserved_bit hstep hb).trans hu) rfl h

/-- Settles O1, by the updater's formula and its bits. -/
theorem updaterRewritesOnlyZeroAndNegative : Obligations.UpdaterRewritesOnlyZeroAndNegative := by
  intro r s
  refine ⟨?_, flagsSetFrom_updatedStatus s.rf.p r, not_flagZ_and_flagN_updatedStatus s.rf.p r⟩
  rw [← updatedStatus_eq, updateFlags]

/-- Settles O2: LDA, TAX and INX end with an update from the register they wrote; BRK has none. -/
theorem flagsFollowTheRegisterTheInstructionWrote : Obligations.FlagsFollowTheRegisterTheInstructionWrote := by
  intro s t
  simp only [exec_eq_effect, Host.Outcome.next.injEq]
  refine ⟨?_, ?_, ?_, ?_⟩
  · rintro v rfl
    exact flagsSetFrom_updatedStatus s.rf.p v
  · rintro rfl
    exact flagsSetFrom_updatedStatus s.rf.p s.rf.a
  · rintro rfl
    exact flagsSetFrom_updatedStatus s.rf.p (s.rf.x + 1)
  · rintro rfl
    rfl

end Sys2Proof.Machine

/-! PROOFS. Reset and launch (spec 10_state.md R27). -/

namespace Sys2Proof.Machine

/-- A launch of a stream within the bound starts Running with what the host supplied. -/
theorem launch_eq_next (cfg : Config) {bs : List Byte} (rf0 : RegFile) (h : bs.length ≤ 0xFFFF) :
    launch cfg bs rf0 = .next { rf := rf0, run := .running, stream := Memory.ofBytes bs, cfg := cfg } := by
  have hfits : Memory.fits (Memory.ofBytes bs) = true := by rwa [Memory.fits_iff, Memory.length_ofBytes]
  rw [launch, if_pos hfits]

/-- Settles O5: reset is read off its fields, and a launch within the bound keeps every register supplied. -/
theorem resetIsAllZeroAndTheHostMaySupplyAnyRegisters :
    Obligations.ResetIsAllZeroAndTheHostMaySupplyAnyRegisters := by
  refine ⟨⟨rfl, rfl, rfl, rfl, rfl, rfl, rfl, rfl, rfl⟩, fun cfg bs rf0 h => ?_⟩
  exact ⟨_, launch_eq_next cfg rf0 h, rfl, rfl, rfl, Memory.bytes_ofBytes bs⟩

end Sys2Proof.Machine

/-! PROOFS. Who writes and who reads A and X (spec 10_state.md R14, R15). -/

namespace Sys2Proof.Machine

/-- Settles O31: of the four effects only LDA's writes A, and only TAX's result depends on it. -/
theorem onlyLdaWritesAAndOnlyTaxReadsIt : Obligations.OnlyLdaWritesAAndOnlyTaxReadsIt := by
  simp only [Obligations.OnlyLdaWritesAAndOnlyTaxReadsIt, exec_eq_effect, Host.Outcome.next.injEq]
  constructor
  · rintro i s _ rfl hwritten
    cases i with
    | lda v => exact ⟨v, rfl⟩
    | tax | brk | inx => exact absurd rfl hwritten
  · rintro i s _ a' hi rfl
    refine ⟨_, rfl, ?_⟩
    cases i with
    | lda v => exact ⟨rfl, fun _ => rfl⟩
    | tax => exact absurd rfl hi
    | brk | inx => exact ⟨rfl, by simp⟩

/-- Settles O32: of the four effects only TAX's and INX's write X, and only INX's result depends on it. -/
theorem onlyTaxAndInxWriteXAndOnlyInxReadsIt : Obligations.OnlyTaxAndInxWriteXAndOnlyInxReadsIt := by
  simp only [Obligations.OnlyTaxAndInxWriteXAndOnlyInxReadsIt, exec_eq_effect, Host.Outcome.next.injEq]
  constructor
  · rintro i s _ rfl hwritten
    cases i with
    | tax => exact .inl rfl
    | inx => exact .inr rfl
    | lda | brk => exact absurd rfl hwritten
  · rintro i s _ x' hi rfl
    refine ⟨_, rfl, ?_⟩
    cases i with
    | tax => exact ⟨rfl, fun _ => rfl⟩
    | inx => exact absurd rfl hi
    | lda | brk => exact ⟨rfl, by simp⟩

end Sys2Proof.Machine

/-! PROOFS. The stream: what a read answers, and that nothing writes it (spec 20_memory.md R29, R30). -/

namespace Sys2Proof.Machine

section Read

variable {s : State} {addr : Addr}

theorem memRead_of_lt (hwf : Memory.wf s.stream = true) (h : addr.toNat < s.stream.length) :
    memRead s addr = .ok ((Memory.bytes s.stream).getD addr.toNat 0) := by
  have hlt : addr.toNat < (Memory.bytes s.stream).length := by rwa [Memory.length_bytes]
  have hread : Memory.read s.stream addr.toNat = some (Memory.bytes s.stream)[addr.toNat] := by
    rw [Memory.read_eq_index hwf, List.getElem?_eq_getElem hlt]
  simp only [memRead, hread, List.getD_eq_getElem _ _ hlt]

theorem memRead_of_length_le (hwf : Memory.wf s.stream = true) (h : s.stream.length ≤ addr.toNat) :
    memRead s addr = .error (.outOfBounds addr) := by
  simp only [memRead, (Memory.read_eq_none hwf addr.toNat).mpr h]

end Read

/-- Settles O9: an address below N indexes the stream's bytes, an address at or past N holds none. -/
theorem streamReadIsTheByteOrOutOfBounds : Obligations.StreamReadIsTheByteOrOutOfBounds :=
  fun _ _ hwf => ⟨memRead_of_lt hwf, memRead_of_length_le hwf⟩

@[simp] theorem past_stream (i : Instr) (s : State) : (past i s).stream = s.stream := rfl
@[simp] theorem past_cfg (i : Instr) (s : State) : (past i s).cfg = s.cfg := rfl

@[simp] theorem effect_stream (i : Instr) (s : State) : (effect i s).stream = s.stream := by
  cases i <;> rfl

@[simp] theorem effect_cfg (i : Instr) (s : State) : (effect i s).cfg = s.cfg := by
  cases i <;> rfl

section Kept

variable {s t : State}

/-- A step keeps the stream and the parameter: the fetch only moves PC, and neither an effect nor a fault writes them. -/
theorem step_stream_cfg (h : step s = .next t) : t.stream = s.stream ∧ t.cfg = s.cfg := by
  obtain ⟨i, s1, hfetch, rfl⟩ | ⟨e, -, rfl⟩ := step_cases h
  · obtain rfl := eq_past_of_fetch hfetch
    simp
  · simp

theorem runToStop_stream_cfg {k : Nat} (h : runToStop k s = .next t) : t.stream = s.stream ∧ t.cfg = s.cfg := by
  refine runToStop_keeps (P := fun u => u.stream = s.stream ∧ u.cfg = s.cfg) ?_ ⟨rfl, rfl⟩ h
  rintro u v ⟨hstream, hcfg⟩ hstep
  obtain ⟨hstream', hcfg'⟩ := step_stream_cfg hstep
  exact ⟨hstream'.trans hstream, hcfg'.trans hcfg⟩

end Kept

/-- Settles O10: every effect, hence every step, hence every run keeps the whole stream, and so every read of it. -/
theorem nothingWritesTheStream : Obligations.NothingWritesTheStream := by
  refine ⟨fun i s t h => ?_, fun s t h => ?_, fun k s t h => ?_⟩
  · have hstream : t.stream = s.stream := by
      rw [exec_eq_effect, Host.Outcome.next.injEq] at h
      rw [← h, effect_stream]
    exact ⟨hstream, congrFun (congrArg Memory.read hstream)⟩
  · obtain ⟨hstream, -⟩ := step_stream_cfg h
    exact ⟨hstream, congrFun (congrArg Memory.read hstream)⟩
  · obtain ⟨hstream, hcfg⟩ := runToStop_stream_cfg h
    exact ⟨hstream, hcfg, congrFun (congrArg Memory.read hstream)⟩

end Sys2Proof.Machine

/-! PROOFS. The operand fetch, the opcode map and the decoder (spec 30_encoding.md R41 to R45, R49). -/

namespace Sys2Proof

section Decode

variable {cfg : Config} {op : Byte} {i : Instr} {bs rest : List Byte}

/-- R45: a byte is illegal when it is none of the four opcodes, 0xE8 being one only where INX is implemented. -/
theorem decodeOpcode_eq_none_iff :
    decodeOpcode cfg op = none ↔
      op ≠ 0xA9 ∧ op ≠ 0xAA ∧ op ≠ 0x00 ∧ (op = 0xE8 → cfg.inxImplemented = false) := by
  rw [decodeOpcode_eq]
  split_ifs with hlda htax hbrk hinx
  · simp [hlda]
  · simp [htax]
  · simp [hbrk]
  · simp [hinx]
  · exact iff_of_true rfl ⟨hlda, htax, hbrk, by simpa using hinx⟩

/-- The ranges R45 writes out leave out the three opcodes every machine has; 0xE8 lies in them. -/
theorem illegal_ranges_iff :
    (0x01 ≤ op.toNat ∧ op.toNat ≤ 0xA8) ∨ (0xAB ≤ op.toNat ∧ op.toNat ≤ 0xFF) ↔
      op ≠ 0xA9 ∧ op ≠ 0xAA ∧ op ≠ 0x00 := by
  simp only [ne_eq, ← BitVec.toNat_inj, BitVec.reduceToNat]
  omega

/-- The operands of an identity are decoded by taking exactly the operand bytes of the instruction answered. -/
theorem decodeOperands_eq_ok_iff {id : Identity} :
    decodeOperands id bs = .ok (i, rest) ↔ id = i.identity ∧ bs = i.operands ++ rest := by
  cases id with
  | ldaImm =>
    cases bs with
    | nil => cases i <;> simp [decodeOperands, Instr.identity, Instr.operands]
    | cons v bs => cases i <;> simp [decodeOperands, Instr.identity, Instr.operands]
  | tax | brk | inx => cases i <;> simp [decodeOperands, Instr.identity, Instr.operands]

/-- The opcode map answers an identity exactly on its opcode, where the machine has it. -/
theorem decodeOpcode_eq_some_iff {id : Identity} :
    decodeOpcode cfg op = some id ↔ op = id.opcode ∧ id.available cfg = true := by
  refine ⟨opcode_of_decodeOpcode, ?_⟩
  rintro ⟨rfl, havailable⟩
  rw [decodeOpcode_eq]
  cases id with
  | ldaImm | tax | brk => rfl
  | inx => simpa [Identity.opcode, Identity.available] using havailable

theorem available_identity (cfg : Config) (i : Instr) : i.identity.available cfg = WellFormed cfg i := by
  cases i <;> rfl

/-- The decoder answers an instruction exactly where the machine has it and the bytes begin with its encoding. -/
theorem decode_eq_ok_iff :
    decode cfg bs = .ok (i, rest) ↔ WellFormed cfg i = true ∧ bs = encode i ++ rest := by
  rw [← available_identity]
  cases bs with
  | nil => simp [decode, encode]
  | cons op bs =>
    simp only [decode, encode, List.cons_append, List.cons.injEq]
    cases hop : decodeOpcode cfg op with
    | none =>
      simp only [reduceCtorEq, false_iff]
      rintro ⟨havailable, hopcode, -⟩
      rw [decodeOpcode_eq_some_iff.mpr ⟨hopcode, havailable⟩] at hop
      cases hop
    | some id =>
      simp only [decodeOperands_eq_ok_iff]
      constructor
      · rintro ⟨rfl, hbs⟩
        obtain ⟨hopcode, havailable⟩ := decodeOpcode_eq_some_iff.mp hop
        exact ⟨havailable, hopcode, hbs⟩
      · rintro ⟨havailable, hopcode, hbs⟩
        rw [decodeOpcode_eq_some_iff.mpr ⟨hopcode, havailable⟩, Option.some.injEq] at hop
        exact ⟨hop.symm, hbs⟩

@[simp] theorem head?_encode (i : Instr) : (encode i).head? = some i.identity.opcode := rfl

/-- R41: the opcode byte, with which the encoding begins, fixes its length. -/
theorem length_encode (i : Instr) : (encode i).length = if i.identity.opcode = 0xA9 then 2 else 1 := by
  cases i <;> rfl

end Decode

end Sys2Proof

namespace Sys2Proof.Machine

/-- Settles O11: the read at PC decides, and PC advances only in the case in which it succeeds. -/
theorem operandFetchReadsThenAdvances : Obligations.OperandFetchReadsThenAdvances := by
  intro s hwf
  constructor
  · intro hlt
    simp only [operandFetch, memRead_of_lt hwf hlt, advancePc]
  · intro hle
    simp only [operandFetch, memRead_of_length_le hwf hle]

/-- Settles O12, by the opcode map read byte by byte. -/
theorem opcodeMapIsTheFourIdentities : Obligations.OpcodeMapIsTheFourIdentities := by
  intro cfg op a
  rw [decodeAt, decodeOpcode_eq]
  cases cfg.inxImplemented with
  | true =>
    simp only [and_true, if_true]
    split_ifs <;> rfl
  | false =>
    simp only [Bool.false_eq_true, and_false, if_false, ite_self]
    split_ifs <;> rfl

/-- Settles O13: the ranges are the complement of the opcode map, and the counts are evaluated over the 256 bytes. -/
theorem everyOtherOpcodeByteIsIllegal : Obligations.EveryOtherOpcodeByteIsIllegal := by
  refine ⟨fun op => ?_, fun op => ?_, by decide +kernel, by decide +kernel, fun cfg op a h => ?_⟩
  · simp [decodeOpcode_eq_none_iff, illegal_ranges_iff]
  · simp [decodeOpcode_eq_none_iff, illegal_ranges_iff, and_assoc]
  · rw [decodeAt, h]

/-- Settles O14: what the decoder consumes is an encoding, and that begins with the opcode byte. -/
theorem opcodeByteFixesTheLength : Obligations.OpcodeByteFixesTheLength := by
  constructor
  · intro i
    simp only [length_encode, head?_encode, Option.some.injEq]
  · intro cfg op bs i rest h
    obtain ⟨-, hbs⟩ := decode_eq_ok_iff.mp h
    obtain ⟨rfl, -⟩ := List.cons.inj hbs
    rw [hbs, List.length_append, length_encode, Nat.add_comm]

/-- Settles O15: the bytes are the encoding of `lda v`, whose effect writes `v` into A. -/
theorem immediateIsByteOneAsItStands : Obligations.ImmediateIsByteOneAsItStands := by
  intro cfg v rest s
  exact ⟨decode_eq_ok_iff.mpr ⟨rfl, rfl⟩, _, exec_eq_effect (.lda v) s, rfl⟩

end Sys2Proof.Machine

/-! PROOFS. A step at the opcode of an instruction of one byte, and TAX (spec 30_encoding.md R48, 40_load_transfer.md R55). -/

namespace Sys2Proof.Machine

section Step

variable {s s1 : State} {i : Instr}

theorem step_of_fetch (hs : Ready s) (h : fetch s = .ok (i, s1)) : step s = .next (effect i s1) := by
  obtain ⟨hrun, -, hfits⟩ := hs
  simp only [step, hrun, hfits, if_true, h, exec_eq_effect]

/-- An instruction without operands is fetched from its opcode byte alone, where the machine has it. -/
theorem fetch_of_opcode (hi : i.operands = []) (hwf : WellFormed s.cfg i = true)
    (hop : Memory.read s.stream s.rf.pc.toNat = some i.identity.opcode) : fetch s = .ok (i, past i s) := by
  have hdecode : decodeOpcode s.cfg i.identity.opcode = some i.identity :=
    decodeOpcode_eq_some_iff.mpr ⟨rfl, (available_identity s.cfg i).trans hwf⟩
  simp only [fetch, memRead, hop, decodeAt, hdecode]
  cases i with
  | lda v => cases hi
  | tax | brk | inx => rfl

/-- PC past an instruction is the sum in Nat where the 16 bits hold it. -/
theorem past_pc_toNat (h : s.rf.pc.toNat + i.length ≤ 0xFFFF) :
    (past i s).rf.pc.toNat = s.rf.pc.toNat + i.length := by
  simp only [past, BitVec.toNat_add, BitVec.toNat_ofNat]
  omega

/-- Past a byte of a legal stream PC has room for one more (R35: N is at most 0xFFFF). -/
theorem pc_succ_le_of_read (hs : StreamOk s) {b : Byte} (h : Memory.read s.stream s.rf.pc.toNat = some b) :
    s.rf.pc.toNat + 1 ≤ 0xFFFF := by
  obtain ⟨hwf, hfits⟩ := hs
  exact (Memory.lt_of_read hwf h).trans_le (Memory.fits_iff.mp hfits)

end Step

/-- Settles O28: the step is TAX's effect on the state past its one byte, and the bound on N keeps PC from wrapping. -/
theorem taxStepCopiesAIntoX : Obligations.TaxStepCopiesAIntoX := by
  intro s hs hop
  have hstep : step s = .next (effect .tax (past .tax s)) := step_of_fetch hs (fetch_of_opcode rfl rfl hop)
  have hpc : (past .tax s).rf.pc.toNat = s.rf.pc.toNat + 1 := past_pc_toNat (pc_succ_le_of_read hs.2 hop)
  exact ⟨_, hstep, rfl, flagsSetFrom_updatedStatus s.rf.p s.rf.a, hpc, rfl, rfl, rfl, hs.1, rfl, rfl⟩

end Sys2Proof.Machine

/-! PROOFS. A stopped core stays as it is, and BRK in a step stops it (spec 10_state.md R24, 30_encoding.md R51,
41_control.md R56). -/

namespace Sys2Proof.Machine

section Stop

variable {s : State}

theorem step_ne_next_of_stopped (h : Stopped s) (t : State) : step s ≠ .next t := fun hstep =>
  h (running_of_step hstep).1

/-- R51: "when Halted, stop", and so when Faulted: a run from a stopped core answers that core. -/
theorem runToStop_of_stopped (h : Stopped s) (k : Nat) : runToStop k s = .next s := by
  cases k with
  | zero => rfl
  | succ k =>
    simp only [runToStop]
    cases hrun : s.run with
    | running => exact absurd hrun h
    | halted | faulted e => rfl

end Stop

/-- Settles O29: the step is BRK's effect on the state past its one byte, the bound on N keeps PC from wrapping, and the
Halted core it leaves is stopped. -/
theorem brkStepHaltsTheRunForGood : Obligations.BrkStepHaltsTheRunForGood := by
  intro s hs hop
  have hstep : step s = .next (effect .brk (past .brk s)) := step_of_fetch hs (fetch_of_opcode rfl rfl hop)
  have hpc : (past .brk s).rf.pc.toNat = s.rf.pc.toNat + 1 := past_pc_toNat (pc_succ_le_of_read hs.2 hop)
  have hstopped : Stopped (halt (past .brk s)) := by simp
  exact ⟨_, hstep, rfl, hpc, rfl, rfl, rfl, rfl, rfl, rfl, rfl,
    step_ne_next_of_stopped hstopped, runToStop_of_stopped hstopped⟩

end Sys2Proof.Machine

/-! PROOFS. What raises a fault at the opcode, and what a step makes of a raise (spec 60_exceptions.md R61, R65). -/

namespace Sys2Proof.Machine

section Raise

variable {s : State} {e : FaultRecord}

/-- R65: a step whose fetch raises takes that fault, from the state it began in. -/
theorem step_of_fetch_error (hrun : s.run = .running) (hfits : Memory.fits s.stream = true)
    (h : fetch s = .error e) : step s = .next (raise s e) := by
  simp only [step, hrun, hfits, if_true, h]

/-- R61: an illegal opcode byte decides the fetch by itself; whether a byte stands after it plays no part. -/
theorem fetch_of_illegal_opcode {op : Byte} (hread : Memory.read s.stream s.rf.pc.toNat = some op)
    (hillegal : decodeOpcode s.cfg op = none) : fetch s = .error (.unsupportedOpcode op s.rf.pc) := by
  simp only [fetch, memRead, hread, decodeAt, hillegal]

end Raise

/-- Settles O35: a byte that is no identity has no decoding, so the fetch raises at the opcode and the step takes it. -/
theorem illegalOpcodeRaisesUnsupportedOpcode : Obligations.IllegalOpcodeRaisesUnsupportedOpcode := by
  intro s op hs hread hlda htax hbrk hinx
  obtain ⟨hrun, -, hfits⟩ := hs
  have hillegal : decodeOpcode s.cfg op = none := decodeOpcode_eq_none_iff.mpr ⟨hlda, htax, hbrk, hinx⟩
  exact ⟨_, step_of_fetch_error hrun hfits (fetch_of_illegal_opcode hread hillegal), rfl⟩

/-- Settles O37: the state a raise leaves is stopped, and a step whose fetch raises ends in such a state. -/
theorem faultEntryEndsTheRun : Obligations.FaultEntryEndsTheRun := by
  intro s e
  have hstopped : Stopped (raise s e) := by simp
  refine ⟨rfl, step_ne_next_of_stopped hstopped, runToStop_of_stopped hstopped, fun s1 hrun hfits hfetch => ?_⟩
  exact ⟨_, step_of_fetch_error hrun hfits hfetch, rfl⟩

end Sys2Proof.Machine

/-! PROOFS. Decoder and encoder are inverse (spec 30_encoding.md R42 to R44, R53). -/

namespace Sys2Proof.Machine

/-- Settles O16: the encoding of an instruction that exists is what the decoder answers it for. -/
theorem decodeOfEncodeIsTheInstruction : Obligations.DecodeOfEncodeIsTheInstruction := by
  intro cfg i rest hwf
  exact decode_eq_ok_iff.mpr ⟨hwf, rfl⟩

/-- Settles O17: the decoder answers an instruction only where it exists and its encoding begins the bytes. -/
theorem decodedBytesAreTheEncoding : Obligations.DecodedBytesAreTheEncoding := by
  intro cfg bs i rest h
  exact decode_eq_ok_iff.mp h

/-- Settles O18: four of the words are encodings; the other two fail at the opcode and at the operand. -/
theorem wordsOfTheSpecDecode : Obligations.WordsOfTheSpecDecode := fun _ =>
  ⟨decode_eq_ok_iff.mpr ⟨rfl, rfl⟩, decode_eq_ok_iff.mpr ⟨rfl, rfl⟩, decode_eq_ok_iff.mpr ⟨rfl, rfl⟩,
    decode_eq_ok_iff.mpr ⟨rfl, rfl⟩, rfl, rfl⟩

end Sys2Proof.Machine

/-! PROOFS. The fetch is the decoder on the bytes from PC on, and a step runs what it answers (spec 30_encoding.md R48,
60_exceptions.md R64). -/

namespace Sys2Proof.Machine

section DropBytes

variable {m : Memory} {a : Nat}

theorem Memory.drop_bytes_of_read (hwf : Memory.wf m = true) {b : Byte} (h : Memory.read m a = some b) :
    (Memory.bytes m).drop a = b :: (Memory.bytes m).drop (a + 1) := by
  rw [Memory.read_eq_index hwf] at h
  obtain ⟨hlt, rfl⟩ := List.getElem?_eq_some_iff.mp h
  exact List.drop_eq_getElem_cons hlt

theorem Memory.drop_bytes_of_length_le (h : m.length ≤ a) : (Memory.bytes m).drop a = [] :=
  List.drop_eq_nil_of_le ((Memory.length_bytes m).trans_le h)

theorem Memory.read_of_drop_bytes (hwf : Memory.wf m = true) {b : Byte} {bs : List Byte}
    (h : (Memory.bytes m).drop a = b :: bs) : Memory.read m a = some b := by
  rw [Memory.read_eq_index hwf, ← List.head?_drop, h, List.head?_cons]

end DropBytes

section FetchDecode

variable {s s1 : State} {i : Instr}

theorem pc_succ_toNat_of_read (hs : StreamOk s) {b : Byte} (h : Memory.read s.stream s.rf.pc.toNat = some b) :
    (s.rf.pc + 1).toNat = s.rf.pc.toNat + 1 := by
  have hroom := pc_succ_le_of_read hs h
  bv_omega

/-- Settles O19: each answer the fetch can give is the decoder's on the bytes from PC on, which are none, an opcode, or an
opcode and the bytes after it. -/
theorem fetchAgreesWithTheDecoderOnTheStream : Obligations.FetchAgreesWithTheDecoderOnTheStream := by
  intro s hs
  have hwf : Memory.wf s.stream = true := hs.1
  obtain ⟨hnone, hfetch⟩ | ⟨op, hop, hcases⟩ := fetch_cases s
  · rw [hfetch, Memory.drop_bytes_of_length_le ((Memory.read_eq_none hwf _).mp hnone)]
    rfl
  · rw [Memory.drop_bytes_of_read hwf hop]
    rw [pc_succ_toNat_of_read hs hop] at hcases
    obtain ⟨hd, hfetch⟩ | ⟨hd, hnone, hfetch⟩ | ⟨v, hd, hv, hfetch⟩ | ⟨i, hnil, hd, hfetch⟩ := hcases
    · simp only [hfetch, decode, hd]
    · rw [hfetch, Memory.drop_bytes_of_length_le ((Memory.read_eq_none hwf _).mp hnone)]
      simp only [decode, hd, decodeOperands]
    · rw [hfetch, Memory.drop_bytes_of_read hwf hv, eq_past_of_fetch hfetch]
      simp only [decode, hd, decodeOperands, past]
    · have hoperands : ∀ bs, decodeOperands i.identity bs = .ok (i, bs) := fun bs =>
        decodeOperands_eq_ok_iff.mpr ⟨rfl, by rw [hnil, List.nil_append]⟩
      rw [hfetch, eq_past_of_fetch hfetch]
      simp only [decode, hd, hoperands, past]

theorem fetch_of_decode (hs : StreamOk s) {rest : List Byte}
    (h : decode s.cfg ((Memory.bytes s.stream).drop s.rf.pc.toNat) = .ok (i, rest)) :
    fetch s = .ok (i, past i s) := by
  rw [fetchAgreesWithTheDecoderOnTheStream s hs, h]
  rfl

theorem decode_of_fetch (hs : StreamOk s) (h : fetch s = .ok (i, s1)) :
    ∃ rest, decode s.cfg ((Memory.bytes s.stream).drop s.rf.pc.toNat) = .ok (i, rest) := by
  rw [fetchAgreesWithTheDecoderOnTheStream s hs] at h
  split at h
  next j rest hdecode =>
    obtain ⟨rfl, -⟩ := Prod.mk.inj (Except.ok.inj h)
    exact ⟨rest, hdecode⟩
  all_goals cases h

theorem length_encode_eq_length (i : Instr) : (encode i).length = i.length := by
  cases i <;> rfl

/-- The bytes an instruction was fetched from are its encoding: its opcode stands at PC, and it ends within the stream. -/
theorem opcode_and_room_of_fetch (hs : StreamOk s) (h : fetch s = .ok (i, s1)) :
    Memory.read s.stream s.rf.pc.toNat = some i.identity.opcode ∧
    s.rf.pc.toNat + i.length ≤ s.stream.length := by
  obtain ⟨rest, hdecode⟩ := decode_of_fetch hs h
  obtain ⟨-, hbytes⟩ := decode_eq_ok_iff.mp hdecode
  have hopcode := Memory.read_of_drop_bytes hs.1 hbytes
  refine ⟨hopcode, ?_⟩
  have hlt := Memory.lt_of_read hs.1 hopcode
  have hlength := congrArg List.length hbytes
  rw [List.length_drop, Memory.length_bytes, List.length_append,
    length_encode_eq_length] at hlength
  omega

/-- Past a fetched instruction PC has not wrapped (R35: N is at most 0xFFFF). -/
theorem past_pc_of_fetch (hs : StreamOk s) (h : fetch s = .ok (i, s1)) :
    (past i s).rf.pc.toNat = s.rf.pc.toNat + i.length := by
  obtain ⟨-, hroom⟩ := opcode_and_room_of_fetch hs h
  exact past_pc_toNat (hroom.trans (Memory.fits_iff.mp hs.2))

/-- What the fetch raises: nothing to fetch, an illegal opcode, or an LDA without its operand. -/
theorem fetch_error_cases {e : FaultRecord} (h : fetch s = .error e) :
    (Memory.read s.stream s.rf.pc.toNat = none ∧ e = .outOfBounds s.rf.pc) ∨
    (∃ op, Memory.read s.stream s.rf.pc.toNat = some op ∧ decodeOpcode s.cfg op = none ∧
      e = .unsupportedOpcode op s.rf.pc) ∨
    (Memory.read s.stream s.rf.pc.toNat = some 0xA9 ∧ Memory.read s.stream (s.rf.pc + 1).toNat = none ∧
      e = .outOfBounds (s.rf.pc + 1)) := by
  obtain ⟨hnone, hfetch⟩ |
    ⟨op, hop, ⟨hd, hfetch⟩ | ⟨hd, hnone, hfetch⟩ | ⟨v, -, -, hfetch⟩ | ⟨i, -, -, hfetch⟩⟩ := fetch_cases s
  · exact .inl ⟨hnone, Except.error.inj (h.symm.trans hfetch)⟩
  · exact .inr (.inl ⟨op, hop, hd, Except.error.inj (h.symm.trans hfetch)⟩)
  · obtain ⟨rfl, -⟩ := opcode_of_decodeOpcode hd
    exact .inr (.inr ⟨hop, hnone, Except.error.inj (h.symm.trans hfetch)⟩)
  · cases h.symm.trans hfetch
  · cases h.symm.trans hfetch

end FetchDecode

/-- Settles O20: the fetch answers the decoded instruction, and the step is its effect. -/
theorem stepRunsTheDecodedInstruction : Obligations.StepRunsTheDecodedInstruction := by
  intro s i rest hs hdecode
  rw [step_of_fetch hs (fetch_of_decode hs.2 hdecode), ← exec_eq_effect]
  rfl

/-- Settles O21: the fetch answers an instruction, whose effect is a next state, or a fault, and taking it is one too. -/
theorem readyCoreAlwaysSteps : Obligations.ReadyCoreAlwaysSteps := by
  rintro s ⟨hrun, -, hfits⟩
  obtain ⟨i, s1, -, hstep⟩ | ⟨e, -, hstep⟩ := step_running hrun hfits
  · exact ⟨_, hstep⟩
  · exact ⟨_, hstep⟩

end Sys2Proof.Machine

/-! PROOFS. The invariant (spec 10_state.md R24, 20_memory.md R28, R35, 60_exceptions.md R61 to R63). -/

namespace Sys2Proof.Machine

@[simp] theorem past_run (i : Instr) (s : State) : (past i s).run = s.run := rfl

@[simp] theorem effect_pc (i : Instr) (s : State) : (effect i s).rf.pc = s.rf.pc := by
  cases i <;> rfl

/-- BRK is the one instruction that writes the run state. -/
theorem effect_run {i : Instr} (h : i ≠ .brk) (s : State) : (effect i s).run = s.run := by
  cases i with
  | brk => exact absurd rfl h
  | lda v | tax | inx => rfl

theorem streamOk_of_stream_eq {s t : State} (h : t.stream = s.stream) (hs : StreamOk s) : StreamOk t := by
  rwa [StreamOk, h]

section Invariant

variable {s s1 : State} {i : Instr} {e : FaultRecord}

theorem runRecordTrue_of_running (h : s.run = .running) : RunRecordTrue s := by
  simp only [RunRecordTrue, h]

/-- R56: the run state is Running, or it is Halted and PC is past the BRK that was fetched. -/
theorem runRecordTrue_effect (hs : Ready s) (h : fetch s = .ok (i, s1)) : RunRecordTrue (effect i (past i s)) := by
  by_cases hbrk : i = .brk
  · subst hbrk
    obtain ⟨hopcode, -⟩ := opcode_and_room_of_fetch hs.2 h
    exact ⟨s.rf.pc.toNat, past_pc_of_fetch hs.2 h, hopcode⟩
  · exact runRecordTrue_of_running ((effect_run hbrk _).trans hs.1)

/-- R61 to R63: the record names the fault the fetch raised, and PC is back at the opcode. -/
theorem runRecordTrue_raise (hs : StreamOk s) (h : fetch s = .error e) : RunRecordTrue (raise s e) := by
  obtain ⟨hnone, rfl⟩ | ⟨op, hop, hillegal, rfl⟩ | ⟨hlda, hnone, rfl⟩ := fetch_error_cases h
  · exact ⟨hnone, .inl rfl⟩
  · exact ⟨rfl, hop, decodeOpcode_eq_none_iff.mp hillegal⟩
  · exact ⟨hnone, .inr ⟨pc_succ_toNat_of_read hs hlda, hlda⟩⟩

end Invariant

/-- Settles O41: a step keeps the stream, and the run state it leaves is true of the fetch it made. -/
theorem everyStepKeepsTheInvariant : Obligations.EveryStepKeepsTheInvariant := by
  rintro s t ⟨hs, -⟩ hstep
  obtain ⟨hrun, -⟩ := running_of_step hstep
  obtain ⟨hstream, -⟩ := step_stream_cfg hstep
  refine ⟨streamOk_of_stream_eq hstream hs, ?_⟩
  obtain ⟨i, s1, hfetch, rfl⟩ | ⟨e, hfetch, rfl⟩ := step_cases hstep
  · rw [eq_past_of_fetch hfetch]
    exact runRecordTrue_effect ⟨hrun, hs⟩ hfetch
  · exact runRecordTrue_raise hs hfetch

end Sys2Proof.Machine

/-! PROOFS. The effect of each instruction, with its frame (spec 40_load_transfer.md R54, R55, 41_control.md R56,
42_increment.md R58). -/

namespace Sys2Proof.Machine

/-- Settles O23, by the effect of LDA and the updater's bits. -/
theorem ldaCompletesWithItsResultAndFrame : Obligations.LdaCompletesWithItsResultAndFrame := by
  intro v s
  exact ⟨_, exec_eq_effect (.lda v) s, rfl, flagsSetFrom_updatedStatus s.rf.p v, rfl, rfl, rfl, rfl, rfl, rfl,
    fun _ => rfl⟩

/-- Settles O24, by the effect of TAX and the updater's bits. -/
theorem taxCompletesWithItsResultAndFrame : Obligations.TaxCompletesWithItsResultAndFrame := by
  intro s
  exact ⟨_, exec_eq_effect .tax s, rfl, flagsSetFrom_updatedStatus s.rf.p s.rf.a, rfl, rfl, rfl, rfl, rfl, rfl,
    fun _ => rfl⟩

/-- Settles O25, by the effect of BRK. -/
theorem brkCompletesWithItsResultAndFrame : Obligations.BrkCompletesWithItsResultAndFrame := by
  intro s
  exact ⟨_, exec_eq_effect .brk s, halt_run s, halt_rf s, halt_cfg s, fun _ => rfl⟩

theorem effect_inx_x_toNat (s : State) : (effect .inx s).rf.x.toNat = (s.rf.x.toNat + 1) % 256 :=
  BitVec.toNat_add ..

/-- Settles O26, by the effect of INX and the updater's bits. -/
theorem inxCompletesWithItsResultAndFrame : Obligations.InxCompletesWithItsResultAndFrame := by
  intro s _
  exact ⟨_, exec_eq_effect .inx s, effect_inx_x_toNat s, flagsSetFrom_updatedStatus s.rf.p (s.rf.x + 1), rfl, rfl, rfl,
    rfl, rfl, rfl, fun _ => rfl⟩

end Sys2Proof.Machine

/-! PROOFS. LDA and byte 0xE8 in a step, and TAX right after LDA (spec 40_load_transfer.md R54, 42_increment.md R58,
70_reset_and_hazards.md R77). -/

namespace Sys2Proof.Machine

section LdaFetch

variable {s : State}

theorem fetch_lda (hs : StreamOk s) {v : Byte} (hop : Memory.read s.stream s.rf.pc.toNat = some 0xA9)
    (hv : Memory.read s.stream (s.rf.pc.toNat + 1) = some v) : fetch s = .ok (.lda v, past (.lda v) s) := by
  have hbytes := Memory.drop_bytes_of_read hs.1 hop
  rw [Memory.drop_bytes_of_read hs.1 hv] at hbytes
  exact fetch_of_decode hs (decode_eq_ok_iff.mpr ⟨rfl, hbytes⟩)

theorem fetch_lda_last (hs : StreamOk s) (hop : Memory.read s.stream s.rf.pc.toNat = some 0xA9)
    (hlast : s.stream.length ≤ s.rf.pc.toNat + 1) : fetch s = .error (.outOfBounds (s.rf.pc + 1)) := by
  rw [fetchAgreesWithTheDecoderOnTheStream s hs, Memory.drop_bytes_of_read hs.1 hop,
    Memory.drop_bytes_of_length_le hlast]
  rfl

end LdaFetch

/-- Settles O27: with its operand in the stream LDA is fetched and PC has not wrapped; without it the fetch raises. -/
theorem ldaStepLoadsItsOperandOrFaults : Obligations.LdaStepLoadsItsOperandOrFaults := by
  intro s hs hop
  constructor
  · intro v hv
    have hfetch := fetch_lda hs.2 hop hv
    exact ⟨_, step_of_fetch hs hfetch, rfl, flagsSetFrom_updatedStatus s.rf.p v, past_pc_of_fetch hs.2 hfetch,
      rfl, rfl, rfl, hs.1, rfl, rfl⟩
  · intro hlast
    exact ⟨s.rf.pc + 1, pc_succ_toNat_of_read hs.2 hop,
      step_of_fetch_error hs.1 hs.2.2 (fetch_lda_last hs.2 hop hlast)⟩

/-- Settles O30: where the machine has INX byte 0xE8 is its opcode, and the step is its effect; where not it is illegal. -/
theorem incrementOpcodeRunsOnlyWhereImplemented : Obligations.IncrementOpcodeRunsOnlyWhereImplemented := by
  intro s hs hop
  constructor
  · intro hinx
    have hfetch : fetch s = .ok (.inx, past .inx s) := fetch_of_opcode rfl hinx hop
    exact ⟨_, step_of_fetch hs hfetch, effect_inx_x_toNat (past .inx s),
      flagsSetFrom_updatedStatus s.rf.p (s.rf.x + 1), past_pc_of_fetch hs.2 hfetch, rfl, rfl, rfl, hs.1, rfl, rfl⟩
  · intro hinx
    have hillegal : decodeOpcode s.cfg 0xE8 = none := by simp [decodeOpcode_eq, hinx]
    exact step_of_fetch_error hs.1 hs.2.2 (fetch_of_illegal_opcode hop hillegal)

/-- Of two updates the second decides the flags, and each keeps the reserved bits. -/
theorem flagsSetFrom_trans {p q r u v : Byte} (hpq : FlagsSetFrom p q u) (hqr : FlagsSetFrom q r v) :
    FlagsSetFrom p r v := by
  obtain ⟨-, -, hkept⟩ := hpq
  obtain ⟨hz, hn, hkept'⟩ := hqr
  exact ⟨hz, hn, fun k hk => (hkept' k hk).trans (hkept k hk)⟩

theorem runToStop_succ_of_step {s u : State} (h : step s = .next u) (k : Nat) :
    runToStop (k + 1) s = runToStop k u := by
  obtain ⟨hrun, -⟩ := running_of_step h
  simp only [runToStop, hrun, h]

/-- Settles O34: the state LDA leaves is ready and holds the loaded value in A, and TAX's step copies it. -/
theorem taxAfterLdaSeesTheLoadedValue : Obligations.TaxAfterLdaSeesTheLoadedValue := by
  intro s v hs hlda hv htax
  obtain ⟨u, hu, ha, hflags, hpc, -, -, -, hrun, hstream, -⟩ := (ldaStepLoadsItsOperandOrFaults s hs hlda).1 v hv
  have hready : Ready u := ⟨hrun, streamOk_of_stream_eq hstream hs.2⟩
  have hop : Memory.read u.stream u.rf.pc.toNat = some 0xAA := by rwa [hstream, hpc]
  obtain ⟨t, ht, hx, hflags', hpc', ha', -, -, hrun', -, -⟩ := taxStepCopiesAIntoX u hready hop
  refine ⟨t, ?_, ha'.trans ha, hx.trans ha, flagsSetFrom_trans hflags (ha ▸ hflags'), by omega, hrun'⟩
  rw [runToStop_succ_of_step hu, runToStop_succ_of_step ht, runToStop]

end Sys2Proof.Machine

/-! PROOFS. What the run state after a step tells (spec 10_state.md R24, 41_control.md R56, 60_exceptions.md R62, R63). -/

namespace Sys2Proof.Machine

/-- Settles O39: the step looks at the run state first. -/
theorem stoppedCoreIsStuck : Obligations.StoppedCoreIsStuck := by
  constructor
  · intro s hrun
    simp only [step, hrun]
  · intro s e hrun
    simp only [step, hrun]

section Faulted

variable {s s1 t : State} {i : Instr} {e : FaultRecord}

/-- An effect faults nothing: the run state after it is as before, or Halted. -/
theorem effect_run_ne_faulted (hrun : s.run = .running) (i : Instr) (e : FaultRecord) :
    (effect i s).run ≠ .faulted e := by
  by_cases hbrk : i = .brk
  · subst hbrk
    simp [effect]
  · simp [effect_run hbrk, hrun]

theorem running_of_fetch (hrun : s.run = .running) (h : fetch s = .ok (i, s1)) : s1.run = .running := by
  rw [eq_past_of_fetch h, past_run, hrun]

/-- A step ends Faulted(e) exactly when its fetch raises e. -/
theorem faulted_iff_fetch_error (hstep : step s = .next t) : t.run = .faulted e ↔ fetch s = .error e := by
  obtain ⟨hrun, -⟩ := running_of_step hstep
  obtain ⟨i, s1, hfetch, rfl⟩ | ⟨e', hfetch, rfl⟩ := step_cases hstep
  · simp [hfetch, effect_run_ne_faulted (running_of_fetch hrun hfetch)]
  · simp [hfetch]

/-- R62: the two reads that can fail are the opcode's and the operand's. -/
theorem fetch_eq_outOfBounds_iff (hs : StreamOk s) {addr : Addr} :
    fetch s = .error (.outOfBounds addr) ↔
      (s.stream.length ≤ s.rf.pc.toNat ∧ addr = s.rf.pc) ∨
      (s.rf.pc.toNat + 1 = s.stream.length ∧ Memory.read s.stream s.rf.pc.toNat = some 0xA9 ∧
        addr.toNat = s.stream.length) := by
  constructor
  · intro h
    obtain ⟨hnone, he⟩ | ⟨op, -, -, he⟩ | ⟨hlda, hnone, he⟩ := fetch_error_cases h
    · exact .inl ⟨(Memory.read_eq_none hs.1 _).mp hnone, FaultRecord.outOfBounds.inj he⟩
    · cases he
    · obtain rfl := FaultRecord.outOfBounds.inj he
      have hnext := pc_succ_toNat_of_read hs hlda
      have hlt := Memory.lt_of_read hs.1 hlda
      have hle := (Memory.read_eq_none hs.1 _).mp hnone
      exact .inr ⟨by omega, hlda, by omega⟩
  · rintro (⟨hle, rfl⟩ | ⟨hlast, hlda, haddr⟩)
    · rw [fetchAgreesWithTheDecoderOnTheStream s hs, Memory.drop_bytes_of_length_le hle]
      rfl
    · have haddr' : addr = s.rf.pc + 1 := by
        rw [← BitVec.toNat_inj, pc_succ_toNat_of_read hs hlda, haddr, hlast]
      rw [haddr', fetch_lda_last hs hlda hlast.ge]

end Faulted

/-- Settles O36: a step faults as its fetch raises, and the fetch raises OutOfBounds where one of its reads fails. -/
theorem outOfBoundsArisesInExactlyTwoPlaces : Obligations.OutOfBoundsArisesInExactlyTwoPlaces := by
  intro s t addr hs hstep
  rw [faulted_iff_fetch_error hstep, fetch_eq_outOfBounds_iff hs.2]

/-- Settles O38: a step that ends Faulted is one whose fetch raised, and that one takes the fault from its own start. -/
theorem faultingStepChangesNoRegister : Obligations.FaultingStepChangesNoRegister := by
  refine ⟨fun s t e hstep hfaulted => ?_, fun _ _ => step_of_fetch_error⟩
  obtain ⟨hrun, hfits⟩ := running_of_step hstep
  have hraise := step_of_fetch_error hrun hfits ((faulted_iff_fetch_error hstep).mp hfaulted)
  exact Host.Outcome.next.inj (hstep.symm.trans hraise)

/-- Settles O40: of the fetched instructions only BRK halts, its opcode then stands at PC, and there it is what runs. -/
theorem haltedIsReachedExactlyByBrk : Obligations.HaltedIsReachedExactlyByBrk := by
  intro s t hs hstep
  constructor
  · intro hhalted
    obtain ⟨i, s1, hfetch, rfl⟩ | ⟨e, -, rfl⟩ := step_cases hstep
    · have hbrk : i = .brk := by
        by_contra hne
        rw [effect_run hne, running_of_fetch hs.1 hfetch] at hhalted
        cases hhalted
      subst hbrk
      exact (opcode_and_room_of_fetch hs.2 hfetch).1
    · cases hhalted
  · intro hop
    obtain ⟨u, hu, hhalted, -⟩ := brkStepHaltsTheRunForGood s hs hop
    obtain rfl := Host.Outcome.next.inj (hstep.symm.trans hu)
    exact hhalted

end Sys2Proof.Machine

/-! PROOFS. PC goes forward within the stream, so a run ends (spec 30_encoding.md R50, R51). -/

namespace Sys2Proof.Machine

/-- Settles O22: PC is past the fetched instruction, which lies within the stream, or a fault leaves it. -/
theorem pcMovesOnlyPastTheInstruction : Obligations.PcMovesOnlyPastTheInstruction := by
  intro s t hs hstep
  obtain ⟨hrun, -⟩ := running_of_step hstep
  obtain ⟨i, s1, hfetch, rfl⟩ | ⟨e, -, rfl⟩ := step_cases hstep
  · obtain ⟨hopcode, hroom⟩ := opcode_and_room_of_fetch hs hfetch
    have hpc : (effect i s1).rf.pc.toNat = s.rf.pc.toNat + i.length := by
      rw [effect_pc, eq_past_of_fetch hfetch, past_pc_of_fetch hs hfetch]
    refine .inr ⟨?_, hpc.trans_le hroom, effect_run_ne_faulted (running_of_fetch hrun hfetch) i⟩
    simp only [hpc, hopcode, Option.some.injEq, ← length_encode_eq_length, length_encode]
  · exact .inl ⟨rfl, e, rfl⟩

/-- A step that does not stop leaves a ready core, on the same stream, with PC further on and not past N. -/
theorem ready_and_pc_of_step_running {s t : State} (hs : Ready s) (hstep : step s = .next t) (hrun : t.run = .running) :
    Ready t ∧ t.stream = s.stream ∧ s.rf.pc.toNat < t.rf.pc.toNat ∧ t.rf.pc.toNat ≤ s.stream.length := by
  obtain ⟨hstream, -⟩ := step_stream_cfg hstep
  refine ⟨⟨hrun, streamOk_of_stream_eq hstream hs.2⟩, hstream, ?_⟩
  obtain ⟨-, e, hfaulted⟩ | ⟨hpc, hle, -⟩ := pcMovesOnlyPastTheInstruction s t hs.2 hstep
  · cases hrun.symm.trans hfaulted
  · refine ⟨?_, hle⟩
    split at hpc <;> omega

/-- A run from a ready core stops when it has one step more than there are bytes from PC on. -/
theorem exists_stopped_of_bytes_left_le {k : Nat} {s : State} (hs : Ready s)
    (hleft : s.stream.length - s.rf.pc.toNat ≤ k) : ∃ t, runToStop (k + 1) s = .next t ∧ Stopped t := by
  induction k generalizing s with
  | zero =>
    obtain ⟨t, hstep⟩ := readyCoreAlwaysSteps s hs
    refine ⟨t, runToStop_succ_of_step hstep 0, fun hrun => ?_⟩
    obtain ⟨-, -, hlt, hle⟩ := ready_and_pc_of_step_running hs hstep hrun
    omega
  | succ k ih =>
    obtain ⟨t, hstep⟩ := readyCoreAlwaysSteps s hs
    rw [runToStop_succ_of_step hstep]
    by_cases hrun : t.run = .running
    · obtain ⟨hready, hstream, hlt, hle⟩ := ready_and_pc_of_step_running hs hstep hrun
      exact ih hready (by rw [hstream]; omega)
    · exact ⟨t, runToStop_of_stopped hrun _, hrun⟩

/-- Settles O43, by induction on the number of bytes from PC on. -/
theorem everyRunEndsWithinTheBound : Obligations.EveryRunEndsWithinTheBound := by
  intro s hs
  exact exists_stopped_of_bytes_left_le hs le_rfl

end Sys2Proof.Machine

/-! PROOFS. What plays no part in a run: SP and Y, and every register but PC in where control goes (spec 10_state.md R16,
R18, 41_control.md R57). -/

namespace Sys2Proof.Machine

theorem effect_sp_y (i : Instr) (s : State) : (effect i s).rf.sp = s.rf.sp ∧ (effect i s).rf.y = s.rf.y := by
  cases i <;> exact ⟨rfl, rfl⟩

theorem step_sp_y {s t : State} (h : step s = .next t) : t.rf.sp = s.rf.sp ∧ t.rf.y = s.rf.y := by
  obtain ⟨i, s1, hfetch, rfl⟩ | ⟨e, -, rfl⟩ := step_cases h
  · obtain rfl := eq_past_of_fetch hfetch
    exact effect_sp_y i (past i s)
  · exact ⟨rfl, rfl⟩

/-- R16, R18: no part of a step reads SP or Y. -/
theorem inert_withSpY (sp y : Byte) : Inert (withSpY sp y) where
  pc _ := rfl
  run _ := rfl
  stream _ := rfl
  cfg _ := rfl
  past _ _ := rfl
  effect i _ := by cases i <;> rfl
  raise _ _ := rfl

/-- Settles O33: every step keeps SP and Y, and replacing them is an inert change. -/
theorem stackPointerAndYAreInertForTheWholeRun : Obligations.StackPointerAndYAreInertForTheWholeRun := by
  intro k s
  refine ⟨fun t h => ?_, fun sp y => (inert_withSpY sp y).runToStop k s⟩
  refine runToStop_keeps (P := fun u => u.rf.sp = s.rf.sp ∧ u.rf.y = s.rf.y) ?_ ⟨rfl, rfl⟩ h
  rintro u v ⟨hsp, hy⟩ hstep
  obtain ⟨hsp', hy'⟩ := step_sp_y hstep
  exact ⟨hsp'.trans hsp, hy'.trans hy⟩

section SameControl

variable {s t : State}

/-- One instruction moves control in the same way, whatever the other registers hold. -/
theorem sameControl_effect_past (h : SameControl s t) (i : Instr) :
    SameControl (effect i (past i s)) (effect i (past i t)) := by
  obtain ⟨hpc, hrun, hstream, hcfg⟩ := h
  refine ⟨by simp [past, hpc], ?_, by simp [hstream], by simp [hcfg]⟩
  by_cases hbrk : i = .brk
  · subst hbrk
    rfl
  · simp [effect_run hbrk, hrun]

/-- A step from the same control ends in the same control. -/
theorem sameControlOutcome_step (h : SameControl s t) : SameControlOutcome (step s) (step t) := by
  obtain ⟨hpc, hrun, hstream, hcfg⟩ := h
  simp only [step, ← hrun, ← hstream, fetch_congr hpc hstream hcfg]
  cases hr : s.run with
  | halted => rfl
  | faulted e => rfl
  | running =>
    by_cases hfits : Memory.fits s.stream = true
    · simp only [hfits, if_true]
      cases hfetch : fetch s with
      | error e => exact ⟨hpc, rfl, hstream, hcfg⟩
      | ok r =>
        obtain ⟨i, s1⟩ := r
        simp only [Except.map, exec_eq_effect, eq_past_of_fetch hfetch]
        exact sameControl_effect_past ⟨hpc, hrun, hstream, hcfg⟩ i
    · simp only [if_neg hfits]
      rfl

end SameControl

/-- Settles O44, by induction on the number of steps. -/
theorem noRegisterOrFlagChangesThePath : Obligations.NoRegisterOrFlagChangesThePath := by
  intro k
  induction k with
  | zero => exact fun s t h => h
  | succ k ih =>
    intro s t h
    have hstep := sameControlOutcome_step h
    have hrun : s.run = t.run := h.2.1
    simp only [runToStop, ← hrun]
    cases s.run with
    | halted | faulted e => exact h
    | running =>
      match step s, step t, hstep with
      | .next u, .next v, hnext => exact ih u v hnext
      | .fault _, .fault _, hreason => exact hreason
      | .refused _, .refused _, hreason => exact hreason

end Sys2Proof.Machine

/-! PROOFS. How a program comes into the machine, and that it then runs from PC on, instruction by instruction (spec
20_memory.md R35, 41_control.md R57, 70_reset_and_hazards.md R74 to R76). -/

namespace Sys2Proof.Machine

/-- Settles O6: such a stream does not fit, and launch and step both ask that first. -/
theorem streamLongerThanTheBoundIsRefused : Obligations.StreamLongerThanTheBoundIsRefused := by
  constructor
  · intro cfg bs rf0 hlong
    have hfits : ¬ Memory.fits (Memory.ofBytes bs) = true := by
      rw [Memory.fits_iff, Memory.length_ofBytes]
      omega
    rw [launch, if_neg hfits]
  · intro s hrun hlong
    have hfits : ¬ Memory.fits s.stream = true := by
      rw [Memory.fits_iff]
      omega
    simp only [step, hrun, if_neg hfits]

/-- A launch that is not refused leaves a ready core. -/
theorem ready_of_launch {cfg : Config} {bs : List Byte} {rf0 : RegFile} {s : State}
    (h : launch cfg bs rf0 = .next s) : Ready s := by
  unfold launch at h
  split_ifs at h with hfits
  obtain rfl := Host.Outcome.next.inj h
  exact ⟨rfl, Memory.wf_ofBytes bs, hfits⟩

/-- Settles O42: reset and a launched core are Running, each on a stream in canonical form within the bound. -/
theorem resetAndEveryLaunchMeetTheInvariant : Obligations.ResetAndEveryLaunchMeetTheInvariant := by
  refine ⟨⟨⟨wf_reset, rfl⟩, runRecordTrue_of_running rfl⟩, fun cfg bs rf0 s h => ?_⟩
  obtain ⟨hrun, hs⟩ := ready_of_launch h
  exact ⟨hs, runRecordTrue_of_running hrun⟩

/-- Settles O7: the launched core is ready with the supplied PC, so its step runs what decodes there; past N nothing is
there to fetch. -/
theorem firstFetchIsAtTheSuppliedPc : Obligations.FirstFetchIsAtTheSuppliedPc := by
  intro cfg bs rf0 hlength
  have hlaunch := launch_eq_next cfg rf0 hlength
  have hs := ready_of_launch hlaunch
  refine ⟨_, hlaunch, fun i rest hdecode => ?_, fun hle => ?_⟩
  · rw [← Memory.bytes_ofBytes bs] at hdecode
    exact stepRunsTheDecodedInstruction _ i rest hs hdecode
  · rw [← Memory.length_ofBytes] at hle
    exact step_of_fetch_error hs.1 hs.2.2 ((fetch_eq_outOfBounds_iff hs.2).mpr (.inl ⟨hle, rfl⟩))

/-- Where the placed bytes have room below the bound they stand at their address. -/
theorem Memory.drop_bytes_overlay (m : Memory) {a : Nat} {bs : List Byte} (h : a + bs.length ≤ 0xFFFF) :
    ∃ rest, (Memory.bytes (Memory.overlay m a bs)).drop a = bs ++ rest := by
  have hbefore : ((Memory.bytes m).take a ++ List.replicate (a - (Memory.bytes m).length) 0x00).length = a := by
    rw [List.length_append, List.length_take, List.length_replicate]
    omega
  have hroom : bs.length ≤ maxStreamLength - a := Nat.le_sub_of_add_le' h
  rw [Memory.overlay, Memory.bytes_ofBytes, List.drop_take, List.append_assoc, List.drop_left' hbefore,
    List.take_append, List.take_of_length_le hroom]
  exact ⟨_, rfl⟩

theorem placePc_eq {s : State} (h : s.rf.pc.toNat + 2 ≤ 0xFFFF) : placePc s = s.rf.pc :=
  if_pos h

theorem placePc_room (s : State) : (placePc s).toNat + 2 ≤ 0xFFFF := by
  unfold placePc
  split_ifs with h
  · exact h
  · decide

theorem ready_placeInstr (s : State) (bs : List Byte) : Ready (placeInstr s bs) :=
  ⟨rfl, Memory.wf_overlay _ _ _, Memory.fits_overlay _ _ _⟩

/-- A row of the table exists on the machine it is placed in: placing INX's opcode brings increment-X with it. -/
theorem wellFormed_placeInstr {i : Instr} {bs : List Byte} (s : State) (h : bs.head? = some i.identity.opcode) :
    WellFormed (placeInstr s bs).cfg i = true := by
  cases i with
  | lda v | tax | brk => rfl
  | inx => simp [WellFormed, placeInstr, h, Instr.identity]

/-- The decoder finds a placed table word where the next step fetches. -/
theorem decode_placed_word (s : State) {nbits w : Nat} {i : Instr} (h : decodeTableWord nbits w = some i) :
    ∃ rest, decode (s.withFetchWord nbits w).cfg
      ((Memory.bytes (s.withFetchWord nbits w).stream).drop (s.withFetchWord nbits w).rf.pc.toNat) =
        .ok (i, rest) := by
  unfold decodeTableWord at h
  split at h
  next j after hdecode =>
    obtain rfl := Option.some.inj h
    obtain ⟨-, hword⟩ := decode_eq_ok_iff.mp hdecode
    have hhead : (wordBytes nbits w).head? = some j.identity.opcode := by rw [hword]; rfl
    obtain ⟨rest, hbytes⟩ := Memory.drop_bytes_overlay s.stream (bs := wordBytes nbits w) (placePc_room s)
    refine ⟨after ++ rest, decode_eq_ok_iff.mpr ⟨wellFormed_placeInstr s hhead, ?_⟩⟩
    rw [← List.append_assoc, ← hword]
    exact hbytes
  next => cases h

/-- Settles O8: the placed word decodes where the ready core that holds it fetches; of the registers placing moves PC
alone, and only where the word has no room. -/
theorem placedWordIsTheNextInstructionRun : Obligations.PlacedWordIsTheNextInstructionRun := by
  intro s nbits w i h
  obtain ⟨rest, hdecode⟩ := decode_placed_word s h
  refine ⟨stepRunsTheDecodedInstruction _ i rest (ready_placeInstr s _) hdecode, rfl, fun hroom => ?_⟩
  rw [State.withFetchWord, placeInstr, placePc_eq hroom]

/-- Settles O45, by induction on the instructions: the first is fetched from its encoding, and its effect leaves a Running
core with PC at the encoding of the next. -/
theorem runOfEncodedInstructionsIsTheirEffectsInOrder :
    Obligations.RunOfEncodedInstructionsIsTheirEffectsInOrder := by
  intro is
  induction is with
  | nil => exact fun _ _ _ _ _ _ _ _ => rfl
  | cons i is ih =>
    intro pre post s hrun hstream hfits hpc his
    obtain ⟨⟨hwf, hbrk⟩, his⟩ := List.forall_mem_cons.mp his
    have hs : StreamOk s := ⟨hstream ▸ Memory.wf_ofBytes _, hfits⟩
    have hbytes : (Memory.bytes s.stream).drop s.rf.pc.toNat = encode i ++ (is.flatMap encode ++ post) := by
      rw [hstream, Memory.bytes_ofBytes, List.append_assoc, hpc, List.drop_left, List.flatMap_cons, List.append_assoc]
    have hfetch := fetch_of_decode hs (decode_eq_ok_iff.mpr ⟨hwf, hbytes⟩)
    rw [List.length_cons, runToStop_succ_of_step (step_of_fetch ⟨hrun, hs⟩ hfetch)]
    simp only [execAll, exec_eq_effect]
    refine ih (pre ++ encode i) post _ ?_ ?_ ?_ ?_ ?_
    · rw [effect_run hbrk, past_run, hrun]
    · simp [hstream]
    · simpa using hfits
    · rw [effect_pc, past_pc_of_fetch hs hfetch, hpc, List.length_append, length_encode_eq_length]
    · simpa using his

end Sys2Proof.Machine
